-- ==== Sys2Proof/Config.lean ====
section
/-! DEFINITION. What the machine fixes of the open parameters of rule R5 of 00_scope.md, and the one value the spec leaves
free. The length width `LENW` (R5, D18) is fixed nowhere: it is the argument `lenw` of what is said of lengths. -/

namespace Sys2Proof.Config

/-- `AW`, the width of `head` and `tail`: log2 of the reference depth `C = 4096` (R5). The block-level definitions
(`Machine.Block aw`) take any width; the machine `Sys2Proof.core` is the hardware, at this one. -/
abbrev AW : Nat := 12

/-- `TABLE` (R14, R71): the 512 key codes, "externally defined" and not in the spec (N1, D7). A free value: nothing
in Lean can evaluate an entry, so what is proved of the machine holds for every table. Log entry 2. -/
opaque table : BitVec 9 → BitVec 8

end Sys2Proof.Config
end

