-- ==== Sys2Proof/Word.lean ====
section
/-! DEFINITION. The words of the block: elements, indexes and the command words of the three ports. -/

namespace Sys2Proof

/-- One slot, one key code, one raw scancode byte: `W = 8` bits (R5, R13, R51). -/
abbrev Byte := BitVec 8

/-- A table index: `IDXW = 9` bits (R5). -/
abbrev TIndex := BitVec 9

/-- A physical key index: bits 6 to 0 of a raw scancode (R51). -/
abbrev Key := BitVec 7

/-- A length (R54): "An unsigned number the block copies to its result and never interprets". Its width `LENW` is an open
parameter (R5, D18), so a length is a number of any size here, and the width is an argument of `lengthFits` and of all
that is said of lengths. Log entry 3. -/
abbrev Len := Nat

/-- A length of `lenw` bits: `0` to `2^LENW - 1` (R63). -/
def lengthFits (lenw : Nat) (n : Len) : Bool := n < 2 ^ lenw

/-- The translation table as an argument: 512 entries of 8 bits (R14, R71, D7). -/
abbrev Table := TIndex → Byte

/-- What port C carries when `c_valid = 1`: the command word and the three side inputs sampled with it (R54). -/
structure CPins where
  cmd    : BitVec 3
  len    : Len
  subOk  : Bool
  copyOk : Bool
deriving DecidableEq, Repr

/-- What port C can carry in a build whose side input `c_len` is `lenw` bits wide (R54). -/
def CPins.fits (lenw : Nat) (pins : CPins) : Bool := lengthFits lenw pins.len

/-- A command word together with the port that carries it (R50, R62): 9 bits on T, 9 bits on P, 3 bits and the side
inputs on C. The three ports number their words independently, so the port is part of the word. -/
inductive PortWord where
  | t (idx : TIndex)
  | p (cmd : BitVec 9)
  | c (pins : CPins)
deriving DecidableEq, Repr

/-- What a port can carry in a build of length width `lenw`. Ports T and P carry no length. -/
def PortWord.fits (lenw : Nat) : PortWord → Bool
  | .t _ => true
  | .p _ => true
  | .c pins => pins.fits lenw

end Sys2Proof
end

