-- ==== Sys2Proof/Syntax.lean ====
section
/-! DEFINITION. The nine operations (R8, R59), one constructor per row of spec/opcode_table.json, each with the
operands the spec gives it. A side input that an operation reads is one of its operands (R101, R103, R106). -/

namespace Sys2Proof

inductive Instr where
  /-- `LOOKUP idx`, port T (R70). -/
  | lookup (idx : TIndex)
  /-- `EVT.PRESS`, port P: the raw byte `b` with `b[7] = 0` and `b[6:0] = key` (R92). -/
  | evtPress (key : Key)
  /-- `EVT.RELEASE`, port P: the raw byte `b` with `b[7] = 1` and `b[6:0] = key` (R91). -/
  | evtRelease (key : Key)
  /-- `ENQ v`, port P (R75). -/
  | enq (v : Byte)
  /-- `DEQ`, port C (R76). -/
  | deq
  /-- `OPEN`, port C, with the side input `c_sub_ok` (R101). -/
  | openSession (subOk : Bool)
  /-- `READ`, port C, with the side inputs `c_len` and `c_copy_ok` (R103). -/
  | read (len : Len) (copyOk : Bool)
  /-- `WRITE`, port C, with the side input `c_len` (R106). -/
  | write (len : Len)
  /-- `CLOSE`, port C (R107). -/
  | close
deriving DecidableEq, Repr

/-- The ports (R50). -/
inductive Port where
  | t
  | p
  | c
deriving DecidableEq, Repr

/-- The port each operation is presented on (R59). -/
def Instr.port : Instr → Port
  | .lookup _ => .t
  | .evtPress _ => .p
  | .evtRelease _ => .p
  | .enq _ => .p
  | .deq => .c
  | .openSession _ => .c
  | .read _ _ => .c
  | .write _ => .c
  | .close => .c

end Sys2Proof
end

