-- ==== Sys2Proof/WellFormed.lean ====
section
/-! DEFINITION. Well-formedness of operations and of builds. -/

namespace Sys2Proof

/-- Well-formed in a build of length width `lenw` (R5, R54). Every other operand is a bit vector of exactly the width the
spec gives it and every value of that width is legal (R33, R52, R61), so the length is all there is to check. -/
def Instr.wellFormed (lenw : Nat) : Instr → Bool
  | .lookup _ => true
  | .evtPress _ => true
  | .evtRelease _ => true
  | .enq _ => true
  | .deq => true
  | .openSession _ => true
  | .read n _ => lengthFits lenw n
  | .write n => lengthFits lenw n
  | .close => true

/-- A legal depth is `C = 2^AW` with `AW >= 1` (R5, D24): `C = 1` would hold no item. -/
def legalWidth (aw : Nat) : Bool := 1 ≤ aw

/-- A legal depth given as a number of slots: a power of two, at least 2 (R5). -/
def legalDepth (c : Nat) : Bool := 2 ≤ c && c == 2 ^ c.log2

end Sys2Proof
end

