-- ==== Sys2Proof/Decode.lean ====
section
/-! DEFINITION. Decoding and encoding of the command words of the three ports (30_encoding.md), and the opcode table
as data. -/

namespace Sys2Proof

/-- Why a word selects no operation. -/
inductive Reject where
  /-- A reserved code of port C: `0b101`, `0b110`, `0b111` (R60). The step answers it with `ILLEGAL_CMD`. -/
  | reservedPortC (cmd : BitVec 3)
  /-- A number that is no command word of port P or port C: a width no port has, or a bit set above the word. -/
  | notACommandWord (nbits w : Nat)
deriving DecidableEq, Repr

/-- Port T: every index is legal (R57, R61). -/
def decodeT (idx : TIndex) : Instr := .lookup idx

/-- Port P (R52, R59): `p_cmd[8]` selects `ENQ`, else `p_cmd[7]`, the release flag of the byte, selects the form of
`EVT`. Every 9-bit value is a defined operation. -/
def decodeP (cmd : BitVec 9) : Instr :=
  if cmd.getLsbD 8 then .enq (cmd.extractLsb' 0 8)
  else if cmd.getLsbD 7 then .evtRelease (cmd.extractLsb' 0 7)
  else .evtPress (cmd.extractLsb' 0 7)

/-- Port C (R54): the five codes, each with the side inputs it reads; a side input it does not read is ignored. -/
def decodeC (pins : CPins) : Except Reject Instr :=
  match pins.cmd.toNat with
  | 0 => .ok .deq
  | 1 => .ok (.openSession pins.subOk)
  | 2 => .ok (.read pins.len pins.copyOk)
  | 3 => .ok (.write pins.len)
  | 4 => .ok .close
  | _ => .error (.reservedPortC pins.cmd)

/-- Decoding is total: an operation, or a rejection by name. -/
def decode : PortWord → Except Reject Instr
  | .t idx => .ok (decodeT idx)
  | .p cmd => .ok (decodeP cmd)
  | .c pins => decodeC pins

/-- The word of an operation (R52, R54, R57). A side input the operation does not read is presented as 0. -/
def encode : Instr → PortWord
  | .lookup idx => .t idx
  | .evtPress key => .p (0#1 ++ (0#1 ++ key))
  | .evtRelease key => .p (0#1 ++ (1#1 ++ key))
  | .enq v => .p (1#1 ++ v)
  | .deq => .c { cmd := 0b000, len := 0, subOk := false, copyOk := false }
  | .openSession s => .c { cmd := 0b001, len := 0, subOk := s, copyOk := false }
  | .read n k => .c { cmd := 0b010, len := n, subOk := false, copyOk := k }
  | .write n => .c { cmd := 0b011, len := n, subOk := false, copyOk := false }
  | .close => .c { cmd := 0b100, len := 0, subOk := false, copyOk := false }

/-- The command word alone, as the number the opcode table gives it. -/
def PortWord.number : PortWord → Nat
  | .t idx => idx.toNat
  | .p cmd => cmd.toNat
  | .c pins => pins.cmd.toNat

/-- The port a word is presented on. -/
def PortWord.port : PortWord → Port
  | .t _ => .t
  | .p _ => .p
  | .c _ => .c

/-- The port word that a number of `nbits` bits stands for: a row of 3 bits (8 in whole bytes) is a word of port C,
a row of 9 bits (16 in whole bytes) one of port P. Side inputs, which the table gives no bits, are 0.
DESIGN CHOICE, log entry 9: a word of port T has the same width and the same values as one of port P, and the number
does not say which port it is for; it is read as port P's. -/
def wordOfTable (nbits w : Nat) : Except Reject PortWord :=
  if nbits = 3 ∨ nbits = 8 then
    if w < 8 then .ok (.c { cmd := BitVec.ofNat 3 w, len := 0, subOk := false, copyOk := false })
    else .error (.notACommandWord nbits w)
  else if nbits = 9 ∨ nbits = 16 then
    if w < 512 then .ok (.p (BitVec.ofNat 9 w)) else .error (.notACommandWord nbits w)
  else .error (.notACommandWord nbits w)

/-- The operation the decoder reads from a table row's word. -/
def decodeTableWord (nbits w : Nat) : Option Instr :=
  match wordOfTable nbits w with
  | .ok pw => (decode pw).toOption
  | .error _ => none

/-- One row of spec/opcode_table.json: the words of `port` whose bits under `mask` are `bits`. -/
structure TableRow where
  mnemonic : String
  port     : Port
  width    : Nat
  bits     : Nat
  mask     : Nat
deriving DecidableEq, Repr

/-- The row of each operation, as spec/opcode_table.json gives it. -/
def Instr.row : Instr → TableRow
  | .lookup _ => ⟨"LOOKUP", .t, 9, 0x000, 0x000⟩
  | .evtPress _ => ⟨"EVT.PRESS", .p, 9, 0x000, 0x180⟩
  | .evtRelease _ => ⟨"EVT.RELEASE", .p, 9, 0x080, 0x180⟩
  | .enq _ => ⟨"ENQ", .p, 9, 0x100, 0x100⟩
  | .deq => ⟨"DEQ", .c, 3, 0x0, 0x7⟩
  | .openSession _ => ⟨"OPEN", .c, 3, 0x1, 0x7⟩
  | .read _ _ => ⟨"READ", .c, 3, 0x2, 0x7⟩
  | .write _ => ⟨"WRITE", .c, 3, 0x3, 0x7⟩
  | .close => ⟨"CLOSE", .c, 3, 0x4, 0x7⟩

/-- A word stands under a row: it is on the row's port and agrees with the row under its mask. -/
def TableRow.covers (r : TableRow) (w : PortWord) : Prop :=
  w.port = r.port ∧ w.number < 2 ^ r.width ∧ w.number &&& r.mask = r.bits

end Sys2Proof
end

