-- ==== Sys2Proof/Machine/State.lean ====
section
/-! DEFINITION. The state of the block (10_state.md), what the environment presents to it and what it answers, as
plain data; why a step can stop; and the state after reset. -/

namespace Sys2Proof.Machine

/-- Why the machine stops. -/
inductive Fault where
  /-- Raised by a dequeue (`DEQ`, `READ`) of a cell that holds no value because no enqueue has written it. SAFE: the
  spec leaves such a cell unspecified and no run reaches the case (R44, U5). Log entry 4. -/
  | unwrittenSlot (index : Nat)
deriving DecidableEq, Repr

/-- Why the machine gives no meaning. -/
inductive Refusal where
  /-- Raised by `exec` for an operation that has no meaning yet; SAFE. No operation of this model is left so. -/
  | notModelled (mnemonic : String)
deriving DecidableEq, Repr

/-- The status of a port C operation, by name (R56). -/
inductive Status where
  | ok
  | busy
  | subscriptionFailed
  | copyFault
  | notOpen
  | illegalCmd
deriving DecidableEq, Repr

/-- Results of a port P operation (R53). -/
structure PResult where
  ok      : Bool
  handled : Bool
deriving DecidableEq, Repr

/-- Results of a port C operation (R55): `c_status`, `c_ret`, and `(c_dvalid, c_data)` as an optional byte. -/
structure CResult where
  status : Status
  ret    : Len
  data   : Option Byte
deriving DecidableEq, Repr

/-- What one operation answers, on the port it was presented on. -/
inductive Answer where
  | t (code : Byte)
  | p (r : PResult)
  | c (r : CResult)
deriving DecidableEq, Repr

/-- What the environment presents in one step (R8, R50): any number of table indexes on port T, a command word or none
on port P (`p_valid`), a command word with its side inputs or none on port C (`c_valid`). -/
structure StepInput where
  t : List TIndex
  p : Option (BitVec 9)
  c : Option CPins
deriving DecidableEq, Repr

/-- What the three ports answer in one step (R53, R55, R57); `none` where no operation was presented. -/
structure StepOut where
  t : List Byte
  p : Option PResult
  c : Option CResult
deriving DecidableEq, Repr

/-- No answer on any port. -/
def StepOut.quiet : StepOut := { t := [], p := none, c := none }

/-- The slot RAM (R13, R30): the cells that hold a value, with strictly rising index; a cell not listed holds none. -/
abbrev Memory := List Host.Cell

/-- The whole state of the block (R10), at any cursor width (R5). -/
structure Block (aw : Nat) where
  /-- "next write slot" (R11). -/
  head  : BitVec aw
  /-- "next read slot" (R12). -/
  tail  : BitVec aw
  /-- The slot storage (R13). -/
  slot  : Memory
  /-- `in_use`: the session is `Open` (R15). -/
  inUse : Bool
deriving DecidableEq, Repr

/-- The block after reset (R20, R140): cursors 0, session `Closed`, no cell holding a value. -/
def Block.reset (aw : Nat) : Block aw := { head := 0, tail := 0, slot := [], inUse := false }

/-- The machine: the block of the reference depth with its surroundings as data. `script` and `out` are the model's
own, no state of the spec (log entries 5 and 6). -/
structure State extends Block Config.AW where
  /-- What the environment will present, one line per step, the next one first. -/
  script : List StepInput
  /-- What the ports answered in the last step. -/
  out    : StepOut
deriving DecidableEq, Repr

/-- The machine right after reset (R20, R140), with nothing presented and nothing answered. -/
def State.reset : State := { toBlock := Block.reset Config.AW, script := [], out := StepOut.quiet }

end Sys2Proof.Machine
end

