-- ==== Sys2Proof/Machine/Flags.lean ====
section
/-! DEFINITION. What the spec has in place of flags: the predicates derived from the cursors (R16, R77), which are not
stored, and the numbers of the status codes (R56). -/

namespace Sys2Proof.Machine

/-- `C = 2^AW`, the number of slots (R5). -/
def depth (aw : Nat) : Nat := 2 ^ aw

/-- The next index, `(x + 1) & (C - 1)` (R11, R12, R77): in `AW` bits the mask is the wrap of the addition. -/
def nextIndex {aw : Nat} (x : BitVec aw) : BitVec aw := x + 1#aw

/-- `count = (head - tail) mod C`, the number of buffered, unread items (R16). -/
def Block.count {aw : Nat} (b : Block aw) : Nat := (b.head - b.tail).toNat

/-- `space = (tail - head - 1) mod C`, the free slots that may still be written (R16). -/
def Block.space {aw : Nat} (b : Block aw) : Nat := (b.tail - b.head - 1#aw).toNat

/-- `empty = (head == tail)` (R16). -/
def Block.empty {aw : Nat} (b : Block aw) : Bool := b.head == b.tail

/-- `full = (count == C - 1)` (R16, C5). -/
def Block.full {aw : Nat} (b : Block aw) : Bool := b.count == depth aw - 1

/-- The number of a status on `c_status` (R56, D9); 4 and 5 are never returned. -/
def Status.code : Status → BitVec 3
  | .ok => 0
  | .busy => 1
  | .subscriptionFailed => 2
  | .copyFault => 3
  | .notOpen => 6
  | .illegalCmd => 7

/-- `c_dvalid` (R55): a key code is delivered in this step. -/
def CResult.dvalid (r : CResult) : Bool := r.data.isSome

end Sys2Proof.Machine
end

