-- ==== Sys2Proof/Machine/Operands.lean ====
section
/-! DEFINITION. The operand forms: the raw scancode byte and the table index assembled from it. -/

namespace Sys2Proof.Machine

/-- `rel`, bit 7 of a raw scancode: 0 = pressed, 1 = released (R51, C6). -/
def rel (b : Byte) : Bool := b.getLsbD 7

/-- `key`, bits 6 to 0 of a raw scancode (R51). -/
def key (b : Byte) : Key := b.extractLsb' 0 7

/-- The raw scancode of a press of key `k` (R51, R92). -/
def pressByte (k : Key) : Byte := 0#1 ++ k

/-- The raw scancode of a release of key `k` (R51, R91). -/
def releaseByte (k : Key) : Byte := 1#1 ++ k

/-- `idx(b) = (b & 0x7F) | ((b & 0x80) << 1)`, 9 bits (R58, C1): the release flag moves to bit 8. -/
def tableIndex (b : Byte) : TIndex :=
  (b &&& 0x7F#8).setWidth 9 ||| ((b &&& 0x80#8).setWidth 9 <<< 1)

end Sys2Proof.Machine
end

