-- ==== Sys2Proof/Machine/Ops.lean ====
section
/-! DEFINITION. The named operations every meaning is built from: reading and writing one slot cell, the two ring-buffer
primitives, the gates on the session, the error result, and how a reply becomes the machine's next state. -/

namespace Sys2Proof.Machine

/-- `MemRead(i, 1)` (R7): the value of cell `i`, none where no enqueue has written it. -/
def Memory.read : Memory → Nat → Option Byte
  | [], _ => none
  | c :: m, i => if c.1 = i then some c.2 else Memory.read m i

/-- `MemWrite(i, 1, v)` (R7), keeping the cells in rising order. -/
def Memory.write : Memory → Nat → Byte → Memory
  | [], i, v => [(i, v)]
  | c :: m, i, v =>
    if i < c.1 then (i, v) :: c :: m
    else if c.1 = i then (i, v) :: m
    else c :: Memory.write m i v

/-- The canonical form of the slot RAM: indexes strictly rising. A cell not listed holds no value, so no entry can
equal what an unlisted cell reads as. -/
abbrev Memory.wf (m : Memory) : Prop := (m.map Prod.fst).Pairwise (· < ·)

/-- What an operation of the block gives: the block after it and the answer of its port, or the fault. -/
abbrev Reply (aw : Nat) := Except Fault (Block aw × Answer)

/-- `tryEnqueue(value) -> bool` (R75). `seenTail` is `tail` as port P reads it: exactly `tail` in this machine, a
possibly stale copy in the alternative of R39. A full buffer drops the value and changes nothing. -/
def Block.tryEnqueue {aw : Nat} (seenTail : BitVec aw) (v : Byte) (b : Block aw) : Block aw × Bool :=
  if nextIndex b.head ≠ seenTail then
    ({ b with slot := b.slot.write b.head.toNat v, head := nextIndex b.head }, true)
  else (b, false)

/-- `tryDequeue() -> Optional<value>` (R76). `seenHead` is `head` as port C reads it (R39). The cell keeps its value
(R34). -/
def Block.tryDequeue {aw : Nat} (seenHead : BitVec aw) (b : Block aw) : Except Fault (Block aw × Option Byte) :=
  if seenHead ≠ b.tail then
    match b.slot.read b.tail.toNat with
    | some v => .ok ({ b with tail := nextIndex b.tail }, some v)
    | none => .error (.unwrittenSlot b.tail.toNat)
  else .ok (b, none)

/-- The result of a port C operation that ends with `return status E` (R7, R120, R128): the status, no length, no
data. The one shared form of every error the block reports; what state changes stand is the caller's. -/
def CResult.error (e : Status) : CResult := { status := e, ret := 0, data := none }

/-- The gate of `EVT` (R90): while the Event Producer is not subscribed nothing runs and the event is not handled. -/
def Block.whenSubscribed {aw : Nat} (b : Block aw) (run : Reply aw) : Reply aw :=
  if b.inUse then run else .ok (b, .p { ok := false, handled := false })

/-- The gate of `READ`, `WRITE`, `CLOSE` (R109, R127): while `Closed`, no state change and `NOT_OPEN`. -/
def Block.whenOpen {aw : Nat} (b : Block aw) (run : Reply aw) : Reply aw :=
  if b.inUse then run else .ok (b, .c (CResult.error .notOpen))

/-- An answer put on its port's results; a lookup's answer is added after those of the lookups before it. -/
def StepOut.put (o : StepOut) : Answer → StepOut
  | .t code => { o with t := o.t ++ [code] }
  | .p r => { o with p := some r }
  | .c r => { o with c := some r }

/-- A reply of the block as an outcome of the machine: the block replaced, the answer shown, all else kept. -/
def State.answer (s : State) : Reply Config.AW → Host.Outcome State Fault Refusal
  | .ok (b, a) => .next { s with toBlock := b, out := s.out.put a }
  | .error f => .fault f

/-- Run `k` on the next state of an outcome; a fault or a refusal stays. -/
def andThen {α β : Type} (o : Host.Outcome α Fault Refusal) (k : α → Host.Outcome β Fault Refusal) :
    Host.Outcome β Fault Refusal :=
  match o with
  | .next s => k s
  | .fault f => .fault f
  | .refused r => .refused r

/-- Two operations in one step (R35, R38): from the block after the port P operation its `head` and slots, from the
block after the port C operation its `tail` and `in_use`, both having read the block at the start of the step. -/
def Block.merge {aw : Nat} (afterP afterC : Block aw) : Block aw :=
  { head := afterP.head, slot := afterP.slot, tail := afterC.tail, inUse := afterC.inUse }

end Sys2Proof.Machine
end

