-- ==== Sys2Proof/Machine/EventProducer.lean ====
section
/-! DEFINITION. EVT.PRESS and EVT.RELEASE (42_event_producer.md). -/

namespace Sys2Proof.Machine

/-- `EVT.PRESS` (R90, R92): index assembly, table lookup, enqueue of the key code whatever it is (R94); a full buffer
drops it silently; handled in every case. -/
def Block.evtPress {aw : Nat} (T : Table) (seenTail : BitVec aw) (k : Key) (b : Block aw) : Reply aw :=
  b.whenSubscribed
    (let r := b.tryEnqueue seenTail (T (tableIndex (pressByte k)))
     .ok (r.1, .p { ok := r.2, handled := true }))

/-- `EVT.RELEASE` (R90, R91): filtered; no lookup, no enqueue, no state change; handled. The key is not examined. -/
def Block.evtRelease {aw : Nat} (_k : Key) (b : Block aw) : Reply aw :=
  b.whenSubscribed (.ok (b, .p { ok := false, handled := true }))

/-- `EVT.PRESS` on the machine: `tail` is read exactly (R39). -/
def execEvtPress (k : Key) (s : State) : Host.Outcome State Fault Refusal :=
  s.answer (Block.evtPress Config.table s.tail k s.toBlock)

/-- `EVT.RELEASE` on the machine. -/
def execEvtRelease (k : Key) (s : State) : Host.Outcome State Fault Refusal :=
  s.answer (Block.evtRelease k s.toBlock)

end Sys2Proof.Machine
end

