-- ==== Sys2Proof/Machine/RingBuffer.lean ====
section
/-! DEFINITION. ENQ and DEQ (41_ring_buffer.md): the bare primitives, not gated by the session (D21). -/

namespace Sys2Proof.Machine

/-- `ENQ v` (R75). -/
def Block.enq {aw : Nat} (seenTail : BitVec aw) (v : Byte) (b : Block aw) : Reply aw :=
  let r := b.tryEnqueue seenTail v
  .ok (r.1, .p { ok := r.2, handled := false })

/-- `DEQ` (R76): `OK` with length 0 whether or not an item was found. -/
def Block.deq {aw : Nat} (seenHead : BitVec aw) (b : Block aw) : Reply aw :=
  match b.tryDequeue seenHead with
  | .ok r => .ok (r.1, .c { status := .ok, ret := 0, data := r.2 })
  | .error f => .error f

/-- `ENQ` on the machine: `tail` is read exactly (R39). -/
def execEnq (v : Byte) (s : State) : Host.Outcome State Fault Refusal :=
  s.answer (Block.enq s.tail v s.toBlock)

/-- `DEQ` on the machine: `head` is read exactly (R39). -/
def execDeq (s : State) : Host.Outcome State Fault Refusal :=
  s.answer (Block.deq s.head s.toBlock)

end Sys2Proof.Machine
end

