-- ==== Sys2Proof/Machine/Session.lean ====
section
/-! DEFINITION. OPEN, READ, WRITE, CLOSE and the reserved codes of port C (43_session_consumer.md, R60). -/

namespace Sys2Proof.Machine

/-- `OPEN` (R101): `in_use` is tested before `c_sub_ok` (R127); a success writes `in_use` and nothing else. -/
def Block.openSession {aw : Nat} (subOk : Bool) (b : Block aw) : Reply aw :=
  if b.inUse then .ok (b, .c (CResult.error .busy))
  else if subOk then .ok ({ b with inUse := true }, .c { status := .ok, ret := 0, data := none })
  else .ok (b, .c (CResult.error .subscriptionFailed))

/-- `READ` (R103 to R105): one dequeue; on an item the copy outcome decides between delivery and `COPY_FAULT`, and
`tail` stays advanced in both; an empty buffer still reports the requested length. -/
def Block.sessionRead {aw : Nat} (seenHead : BitVec aw) (len : Len) (copyOk : Bool) (b : Block aw) : Reply aw :=
  b.whenOpen
    (match b.tryDequeue seenHead with
     | .ok (b', some v) =>
       if copyOk then .ok (b', .c { status := .ok, ret := len, data := some v })
       else .ok (b', .c (CResult.error .copyFault))
     | .ok (b', none) => .ok (b', .c { status := .ok, ret := len, data := none })
     | .error f => .error f)

/-- `WRITE` (R106): reports the input length, no state change. -/
def Block.sessionWrite {aw : Nat} (len : Len) (b : Block aw) : Reply aw :=
  b.whenOpen (.ok (b, .c { status := .ok, ret := len, data := none }))

/-- `CLOSE` (R107): clears `in_use` and nothing else. -/
def Block.close {aw : Nat} (b : Block aw) : Reply aw :=
  b.whenOpen (.ok ({ b with inUse := false }, .c { status := .ok, ret := 0, data := none }))

/-- A reserved code of port C (R60): `ILLEGAL_CMD`, no state change, whatever the session state (R127). -/
def Block.reservedCmd {aw : Nat} (b : Block aw) : Reply aw :=
  .ok (b, .c (CResult.error .illegalCmd))

/-- `OPEN` on the machine. -/
def execOpenSession (subOk : Bool) (s : State) : Host.Outcome State Fault Refusal :=
  s.answer (Block.openSession subOk s.toBlock)

/-- `READ` on the machine: `head` is read exactly (R39). -/
def execRead (len : Len) (copyOk : Bool) (s : State) : Host.Outcome State Fault Refusal :=
  s.answer (Block.sessionRead s.head len copyOk s.toBlock)

/-- `WRITE` on the machine. -/
def execWrite (len : Len) (s : State) : Host.Outcome State Fault Refusal :=
  s.answer (Block.sessionWrite len s.toBlock)

/-- `CLOSE` on the machine. -/
def execClose (s : State) : Host.Outcome State Fault Refusal :=
  s.answer (Block.close s.toBlock)

/-- A reserved code of port C on the machine. It is no row of the opcode table, so it has no arm in `exec`. -/
def execReservedCmd (s : State) : Host.Outcome State Fault Refusal :=
  s.answer (Block.reservedCmd s.toBlock)

end Sys2Proof.Machine
end

