-- ==== Sys2Proof/Machine/Translation.lean ====
section
/-! DEFINITION. LOOKUP (40_translation.md). -/

namespace Sys2Proof.Machine

/-- `LOOKUP idx` (R70): `t_code <- TABLE[idx]`, no state read or written, no error. -/
def Block.lookup {aw : Nat} (T : Table) (idx : TIndex) (b : Block aw) : Reply aw :=
  .ok (b, .t (T idx))

/-- `LOOKUP` on the machine. -/
def execLookup (idx : TIndex) (s : State) : Host.Outcome State Fault Refusal :=
  s.answer (Block.lookup Config.table idx s.toBlock)

end Sys2Proof.Machine
end

