-- ==== Sys2Proof/Machine/Dispatch.lean ====
section
/-! DEFINITION. One arm per operation. -/

namespace Sys2Proof.Machine

def exec (i : Instr) (s : State) : Host.Outcome State Fault Refusal :=
  match i with
  | .lookup idx => Sys2Proof.Machine.execLookup idx s
  | .evtPress key => Sys2Proof.Machine.execEvtPress key s
  | .evtRelease key => Sys2Proof.Machine.execEvtRelease key s
  | .enq v => Sys2Proof.Machine.execEnq v s
  | .deq => Sys2Proof.Machine.execDeq s
  | .openSession subOk => Sys2Proof.Machine.execOpenSession subOk s
  | .read len copyOk => Sys2Proof.Machine.execRead len copyOk s
  | .write len => Sys2Proof.Machine.execWrite len s
  | .close => Sys2Proof.Machine.execClose s

end Sys2Proof.Machine
end

