-- ==== Sys2Proof/Machine/Ports.lean ====
section
/-! DEFINITION. One step of the three ports (R8, R35, R50): what each port does with what it is presented, and how the
ports' effects come together. -/

namespace Sys2Proof.Machine

/-- Port T: each index presented is looked up; any number in a step (R8). -/
def presentT : List TIndex → State → Host.Outcome State Fault Refusal
  | [], s => .next s
  | idx :: rest, s => andThen (exec (decodeT idx) s) (presentT rest)

/-- Port P: the operation of the command word, or nothing when `p_valid = 0` (R52). -/
def presentP (cmd : Option (BitVec 9)) (s : State) : Host.Outcome State Fault Refusal :=
  match cmd with
  | none => .next s
  | some w => exec (decodeP w) s

/-- Port C: the operation of the command word with its side inputs, `ILLEGAL_CMD` for a reserved code, or nothing when
`c_valid = 0` (R54, R60). -/
def presentC (pins : Option CPins) (s : State) : Host.Outcome State Fault Refusal :=
  match pins with
  | none => .next s
  | some w =>
    match decodeC w with
    | .ok i => exec i s
    | .error _ => execReservedCmd s

/-- The machine at the start of a step: the line taken from the script, no answer shown yet. -/
def State.beginStep (s : State) (rest : List StepInput) : State :=
  { s with script := rest, out := StepOut.quiet }

/-- All ports of one step, each on the state at its start (R35); the effects come together by ownership (R38), the
answers port by port.
DESIGN CHOICE, log entry 21: with a reserved code on port C an operation on port P of the same step still runs. R60 says that
a step that presents a reserved code changes no state, R35 speaks of two operations and a reserved code is none. -/
def runPorts (line : StepInput) (s : State) : Host.Outcome State Fault Refusal :=
  andThen (presentT line.t s) fun st =>
  andThen (presentP line.p s) fun sp =>
  andThen (presentC line.c s) fun sc =>
    .next { s with
      toBlock := Block.merge sp.toBlock sc.toBlock
      out := { t := st.out.t, p := sp.out.p, c := sc.out.c } }

/-- A step: the next line of the script runs. With no line left the environment presents nothing, and the block does
nothing (R20, R149). -/
def stepScript (s : State) : Host.Outcome State Fault Refusal :=
  match s.script with
  | [] => .next (s.beginStep [])
  | line :: rest => runPorts line (s.beginStep rest)

/-- The line that presents one word on its port and nothing on the others. -/
def StepInput.ofWord : PortWord → StepInput
  | .t idx => { t := [idx], p := none, c := none }
  | .p cmd => { t := [], p := some cmd, c := none }
  | .c pins => { t := [], p := none, c := some pins }

/-- The machine with one more line to run first. -/
def State.presentNext (s : State) (line : StepInput) : State :=
  { s with script := line :: s.script }

/-- The machine with a table row's word presented as the next line; unchanged for a number that is no command word. -/
def State.presentTableWord (s : State) (nbits w : Nat) : State :=
  match wordOfTable nbits w with
  | .ok pw => s.presentNext (StepInput.ofWord pw)
  | .error _ => s

end Sys2Proof.Machine
end

