-- ==== Sys2Proof/Machine/Step.lean ====
section
/-! DEFINITION. The step of the machine, and the placing of one word where the step takes its next line. -/

namespace Sys2Proof.Machine

/-- One step (R8): at most one operation on port P and at most one on port C, lookups on port T. -/
def step (s : State) : Host.Outcome State Fault Refusal := stepScript s

/-- `s` with the word of a table row presented in the very next step (log entry 5). -/
def State.withFetchWord (s : State) (nbits w : Nat) : State := s.presentTableWord nbits w

end Sys2Proof.Machine
end

