-- ==== Sys2Proof/Machine/Script.lean ====
section
/-! DEFINITION. Lines of a script and the pseudo-operations, as abbreviations of what the environment presents
(R63, R64). They add no behaviour. -/

namespace Sys2Proof.Machine.Line

/-- A line carrying one operation. -/
def op (i : Instr) : StepInput := StepInput.ofWord (encode i)

/-- `EVT b` (R63): `EVT.PRESS` when `b < 0x80`, `EVT.RELEASE` otherwise. -/
def evt (b : Byte) : StepInput := StepInput.ofWord (.p (0#1 ++ b))

/-- A line carrying a reserved code of port C. -/
def reserved (cmd : BitVec 3) : StepInput :=
  StepInput.ofWord (.c { cmd := cmd, len := 0, subOk := false, copyOk := false })

/-- `a || b` (R63): both in one step. -/
def both (a b : StepInput) : StepInput := { t := a.t ++ b.t, p := a.p.or b.p, c := a.c.or b.c }

/-- `PRESS k` (R64): `EVT k`. -/
def press (k : Key) : StepInput := evt (pressByte k)

/-- `RELEASE k` (R64): `EVT (0x80 | k)`. -/
def release (k : Key) : StepInput := evt (releaseByte k)

/-- `OPEN` (R64): `OPEN sub_ok=1`. -/
def shortOpen : StepInput := op (.openSession true)

/-- `READ` (R64): `READ len=1 copy_ok=1`. -/
def shortRead : StepInput := op (.read 1 true)

/-- `WRITE` (R64): `WRITE len=0`. -/
def shortWrite : StepInput := op (.write 0)

/-- `REPEAT n { ... }` (R64): the lines written out `n` times. -/
def repeated (n : Nat) (lines : List StepInput) : List StepInput := (List.replicate n lines).flatten

end Sys2Proof.Machine.Line
end

