-- ==== Sys2Proof/Machine/AnyDepth.lean ====
section
/-! DEFINITION. The block at any build: every depth `C = 2^AW` and every table `T` as arguments (R5, R71, D7, D24), with
the same meanings of the operations the machine runs. `seenTail` and `seenHead` are what port P and port C read for the
other side's cursor (R39): the cursors themselves in `Block.perform` and `Block.step`, which are the block of the spec. -/

namespace Sys2Proof.Machine

/-- One operation, each port reading the other side's cursor as given. -/
def Block.performSeeing {aw : Nat} (T : Table) (seenTail seenHead : BitVec aw) (i : Instr) (b : Block aw) :
    Reply aw :=
  match i with
  | .lookup idx => b.lookup T idx
  | .evtPress k => b.evtPress T seenTail k
  | .evtRelease k => b.evtRelease k
  | .enq v => b.enq seenTail v
  | .deq => b.deq seenHead
  | .openSession s => b.openSession s
  | .read n k => b.sessionRead seenHead n k
  | .write n => b.sessionWrite n
  | .close => b.close

/-- One operation with exact cursors (R39, `CURSOR_VISIBILITY = exact`). -/
def Block.perform {aw : Nat} (T : Table) (i : Instr) (b : Block aw) : Reply aw :=
  b.performSeeing T b.tail b.head i

/-- The block and the answers of a step. -/
abbrev StepReply (aw : Nat) := Except Fault (Block aw × StepOut)

/-- A reply of one operation as that of a step in which nothing else is presented. -/
def Reply.alone {aw : Nat} (r : Reply aw) : StepReply aw :=
  match r with
  | .ok (b, a) => .ok (b, StepOut.quiet.put a)
  | .error f => .error f

/-- Port P in a step (R52). -/
def Block.onP {aw : Nat} (T : Table) (seenTail : BitVec aw) (cmd : Option (BitVec 9)) (b : Block aw) : StepReply aw :=
  match cmd with
  | none => .ok (b, StepOut.quiet)
  | some w => Reply.alone (b.performSeeing T seenTail b.head (decodeP w))

/-- Port C in a step (R54, R60). -/
def Block.onC {aw : Nat} (T : Table) (seenHead : BitVec aw) (pins : Option CPins) (b : Block aw) : StepReply aw :=
  match pins with
  | none => .ok (b, StepOut.quiet)
  | some w =>
    match decodeC w with
    | .ok i => Reply.alone (b.performSeeing T b.tail seenHead i)
    | .error _ => Reply.alone b.reservedCmd

/-- One step, each port reading the other side's cursor as given; both read the block at its start (R35).
A reserved code on port C does not keep port P from running: DESIGN CHOICE, log entry 21. -/
def Block.stepSeeing {aw : Nat} (T : Table) (seenTail seenHead : BitVec aw) (inp : StepInput) (b : Block aw) :
    StepReply aw :=
  match b.onP T seenTail inp.p, b.onC T seenHead inp.c with
  | .ok (bp, op), .ok (bc, oc) => .ok (Block.merge bp bc, { t := inp.t.map T, p := op.p, c := oc.c })
  | .error f, _ => .error f
  | .ok _, .error f => .error f

/-- One step of the block of the spec. -/
def Block.step {aw : Nat} (T : Table) (inp : StepInput) (b : Block aw) : StepReply aw :=
  b.stepSeeing T b.tail b.head inp

/-- A sequence of steps with the answers of each, oldest first. -/
def Block.run {aw : Nat} (T : Table) : List StepInput → Block aw → Except Fault (Block aw × List StepOut)
  | [], b => .ok (b, [])
  | inp :: rest, b =>
    match b.step T inp with
    | .error f => .error f
    | .ok (b', o) =>
      match Block.run T rest b' with
      | .error f => .error f
      | .ok (b'', os) => .ok (b'', o :: os)

end Sys2Proof.Machine
end

