-- ==== Sys2Proof/Machine/Stale.lean ====
section
/-! DEFINITION. The named alternative `CURSOR_VISIBILITY = stale` (R39, R22, D3), which the spec defines and does not
adopt: each port keeps a hidden copy of the other side's cursor. The machine `Sys2Proof.core` is the exact one. -/

namespace Sys2Proof.Machine

/-- The block with the two items of hidden state that the alternative adds (R22, R39). -/
structure StaleBlock (aw : Nat) extends Block aw where
  tailSeen : BitVec aw
  headSeen : BitVec aw
deriving DecidableEq, Repr

/-- Both copies are 0 after reset (R39). -/
def StaleBlock.reset (aw : Nat) : StaleBlock aw := { toBlock := Block.reset aw, tailSeen := 0, headSeen := 0 }

/-- One value of the sequence `seen, seen + 1, ..., cursor` (mod C) (R39): the `lag`-th, or the last. -/
def catchUp {aw : Nat} (seen cursor : BitVec aw) (lag : Nat) : BitVec aw :=
  seen + BitVec.ofNat aw (min lag (cursor - seen).toNat)

/-- The operation makes an enqueue test (R75, R92). -/
def testsSpace (inUse : Bool) : Instr → Bool
  | .enq _ => true
  | .evtPress _ => inUse
  | .evtRelease _ => false
  | .lookup _ => false
  | .deq => false
  | .openSession _ => false
  | .read _ _ => false
  | .write _ => false
  | .close => false

/-- The operation makes a dequeue test (R76, R103). -/
def testsItems (inUse : Bool) : Instr → Bool
  | .deq => true
  | .read _ _ => inUse
  | .openSession _ => false
  | .write _ => false
  | .close => false
  | .lookup _ => false
  | .evtPress _ => false
  | .evtRelease _ => false
  | .enq _ => false

/-- `tail_seen` as port P uses it in this step: replaced before an enqueue test, kept otherwise. -/
def StaleBlock.seeTail {aw : Nat} (sb : StaleBlock aw) (lag : Nat) (cmd : Option (BitVec 9)) : BitVec aw :=
  match cmd with
  | none => sb.tailSeen
  | some w =>
    if testsSpace sb.inUse (decodeP w) then catchUp sb.tailSeen sb.tail lag else sb.tailSeen

/-- `head_seen` as port C uses it in this step: replaced before a dequeue test, kept otherwise. -/
def StaleBlock.seeHead {aw : Nat} (sb : StaleBlock aw) (lag : Nat) (pins : Option CPins) : BitVec aw :=
  match pins with
  | none => sb.headSeen
  | some w =>
    match decodeC w with
    | .ok i => if testsItems sb.inUse i then catchUp sb.headSeen sb.head lag else sb.headSeen
    | .error _ => sb.headSeen

/-- One step of the stale alternative. `lagP` and `lagC` are the free choices of R39, one for each port. -/
def StaleBlock.step {aw : Nat} (T : Table) (lagP lagC : Nat) (inp : StepInput) (sb : StaleBlock aw) :
    Except Fault (StaleBlock aw × StepOut) :=
  let seenTail := sb.seeTail lagP inp.p
  let seenHead := sb.seeHead lagC inp.c
  match sb.toBlock.stepSeeing T seenTail seenHead inp with
  | .ok (b, o) => .ok ({ toBlock := b, tailSeen := seenTail, headSeen := seenHead }, o)
  | .error f => .error f

end Sys2Proof.Machine
end

