-- ==== Sys2Proof/Safety.lean ====
section
/-! DEFINITION. The terms claims are stated in: the invariants of the block (R17), its abstract queue (R18), a bounded
queue that says what the block is for without cursors or cells, and what a run stored and delivered. -/

namespace Sys2Proof.Machine

/-- The invariants of R17 that a value of `Block` does not already have by its type: the slot RAM is in its canonical
form and inside the index space, and every cell of the valid region holds a value. -/
structure Block.Inv {aw : Nat} (b : Block aw) : Prop where
  canonical : b.slot.wf
  inRange   : ∀ c ∈ b.slot, c.1 < depth aw
  written   : ∀ k < b.count, (b.slot.read (b.tail + BitVec.ofNat aw k).toNat).isSome

/-- The invariant of the machine: that of its block. -/
def State.Inv (s : State) : Prop := s.toBlock.Inv

/-- What a step presents, in a build of length width `lenw` (R5, R54). -/
def StepInput.fits (lenw : Nat) (inp : StepInput) : Bool := inp.c.all (·.fits lenw)

/-- What a step answers, in a build of length width `lenw`: `c_ret` is that wide (R55). -/
def StepOut.fits (lenw : Nat) (o : StepOut) : Bool := o.c.all fun r => lengthFits lenw r.ret

/-- The machine as one of length width `lenw`: every length to be presented and the length shown fit. -/
def State.fits (lenw : Nat) (s : State) : Bool := s.script.all (·.fits lenw) && s.out.fits lenw

/-- A line with its length replaced. -/
def StepInput.mapLen (f : Len → Len) (inp : StepInput) : StepInput :=
  { inp with c := inp.c.map fun pins => { pins with len := f pins.len } }

/-- The answers of a step with the reported length replaced. -/
def StepOut.mapRet (f : Len → Len) (o : StepOut) : StepOut :=
  { o with c := o.c.map fun r => { r with ret := f r.ret } }

/-- The values of the `n` cells from index `i` on, with wrap. -/
def Memory.region {aw : Nat} (m : Memory) (i : BitVec aw) : Nat → List Byte
  | 0 => []
  | n + 1 => (Memory.read m i.toNat).toList ++ Memory.region m (nextIndex i) n

/-- The abstract content of the buffer (R18): `[slot[tail], ..., slot[head - 1]]`, oldest first. -/
def Block.queue {aw : Nat} (b : Block aw) : List Byte := b.slot.region b.tail b.count

/-- The bounded queue the block implements (R18): its items, oldest first, and the session bit. -/
structure Fifo where
  items : List Byte
  inUse : Bool
deriving DecidableEq, Repr

/-- A block seen as the bounded queue. -/
def Block.toFifo {aw : Nat} (b : Block aw) : Fifo := { items := b.queue, inUse := b.inUse }

/-- What offering `v` to a queue with room for `room` items adds to it: `v`, or nothing when it is full (R80). -/
def Fifo.offer (q : Fifo) (room : Nat) (v : Byte) : List Byte := if q.items.length < room then [v] else []

/-- Port P on the bounded queue: the items added, and the answer. A press of key `K` offers `T[K]` (R72). -/
def Fifo.onP (T : Table) (room : Nat) (q : Fifo) : Option (BitVec 9) → List Byte × Option PResult
  | none => ([], none)
  | some w =>
    match decodeP w with
    | .enq v => (q.offer room v, some { ok := !(q.offer room v).isEmpty, handled := false })
    | .evtPress k =>
      if q.inUse then
        (q.offer room (T (k.setWidth 9)), some { ok := !(q.offer room (T (k.setWidth 9))).isEmpty, handled := true })
      else ([], some { ok := false, handled := false })
    | .evtRelease _ => ([], some { ok := false, handled := q.inUse })
    | .lookup _ | .deq | .openSession _ | .read _ _ | .write _ | .close => ([], none)

/-- Port C on the bounded queue: how many items leave at the front (0 or 1), the session bit after, and the answer. -/
def Fifo.onC (q : Fifo) : Option CPins → Nat × Bool × Option CResult
  | none => (0, q.inUse, none)
  | some pins =>
    match decodeC pins with
    | .ok .deq => (q.items.head?.toList.length, q.inUse, some { status := .ok, ret := 0, data := q.items.head? })
    | .ok (.openSession subOk) =>
      if q.inUse then (0, true, some (CResult.error .busy))
      else if subOk then (0, true, some { status := .ok, ret := 0, data := none })
      else (0, false, some (CResult.error .subscriptionFailed))
    | .ok (.read len copyOk) =>
      if !q.inUse then (0, false, some (CResult.error .notOpen))
      else if q.items.isEmpty then (0, true, some { status := .ok, ret := len, data := none })
      else if copyOk then (1, true, some { status := .ok, ret := len, data := q.items.head? })
      else (1, true, some (CResult.error .copyFault))
    | .ok (.write len) =>
      if q.inUse then (0, true, some { status := .ok, ret := len, data := none })
      else (0, false, some (CResult.error .notOpen))
    | .ok .close =>
      if q.inUse then (0, false, some { status := .ok, ret := 0, data := none })
      else (0, false, some (CResult.error .notOpen))
    | .ok (.lookup _) | .ok (.evtPress _) | .ok (.evtRelease _) | .ok (.enq _) => (0, q.inUse, none)
    | .error _ => (0, q.inUse, some (CResult.error .illegalCmd))

/-- One step of the bounded queue: items leave at the front, items added join at the back, both decided on the queue at
the start of the step (R35), port P also beside a reserved code on port C (DESIGN CHOICE, log entry 21). -/
def Fifo.step (T : Table) (room : Nat) (inp : StepInput) (q : Fifo) : Fifo × StepOut :=
  let p := q.onP T room inp.p
  let c := q.onC inp.c
  ({ items := q.items.drop c.1 ++ p.1, inUse := c.2.1 }, { t := inp.t.map T, p := p.2, c := c.2.2 })

/-- A sequence of steps of the bounded queue. -/
def Fifo.run (T : Table) (room : Nat) : List StepInput → Fifo → Fifo × List StepOut
  | [], q => (q, [])
  | inp :: rest, q =>
    let r := q.step T room inp
    let r' := Fifo.run T room rest r.1
    (r'.1, r.2 :: r'.2)

/-- The value a step stored in the buffer, read off what was presented and what was answered: the operand of an `ENQ`,
the key code of a press, when `p_ok = 1`. -/
def storedBy (T : Table) (inp : StepInput) (o : StepOut) : List Byte :=
  match inp.p, o.p with
  | some w, some r =>
    if r.ok then
      match decodeP w with
      | .enq v => [v]
      | .evtPress k => [T (k.setWidth 9)]
      | .evtRelease _ | .lookup _ | .deq | .openSession _ | .read _ _ | .write _ | .close => []
    else []
  | _, _ => []

/-- The key code a step delivered on port C, if any. -/
def deliveredBy (o : StepOut) : List Byte := (o.c.bind (·.data)).toList

/-- The step lost an item to `COPY_FAULT` (R104). -/
def lostItem (o : StepOut) : Bool := o.c.any (fun r => r.status == .copyFault)

/-- The values a run stored, oldest first. -/
def storedIn (T : Table) (inps : List StepInput) (os : List StepOut) : List Byte :=
  (List.zipWith (storedBy T) inps os).flatten

/-- The key codes a run delivered, oldest first. -/
def deliveredIn (os : List StepOut) : List Byte := os.flatMap deliveredBy

/-- The steps of a run that took an item out of the buffer: it was delivered, or lost to `COPY_FAULT`. -/
def takenIn (os : List StepOut) : Nat := (os.filter fun o => (deliveredBy o).length == 1 || lostItem o).length

/-- The operation that port P of a line performs, none when nothing is presented. -/
def StepInput.pOnly (inp : StepInput) : StepInput := { t := [], p := inp.p, c := none }

/-- The operation that port C of a line performs, none when nothing is presented. -/
def StepInput.cOnly (inp : StepInput) : StepInput := { t := [], p := none, c := inp.c }

/-- The port P and port C results of one line run as two steps, `first` and then `second` (R35, R36). -/
def Block.oneAfterTheOther {aw : Nat} (T : Table) (first second : StepInput) (b : Block aw) :
    Except Fault (Block aw × Option PResult × Option CResult) :=
  match b.step T first with
  | .error f => .error f
  | .ok (b', o) =>
    match b'.step T second with
    | .error f => .error f
    | .ok (b'', o') => .ok (b'', o.p.or o'.p, o.c.or o'.c)

/-- One line run as one step, with the port P and port C results. -/
def Block.together {aw : Nat} (T : Table) (inp : StepInput) (b : Block aw) :
    Except Fault (Block aw × Option PResult × Option CResult) :=
  match b.step T inp with
  | .error f => .error f
  | .ok (b', o) => .ok (b', o.p, o.c)

/-- Port C of a line carries `DEQ` or `READ`. -/
def StepInput.dequeues (inp : StepInput) : Bool :=
  match inp.c with
  | none => false
  | some pins =>
    match decodeC pins with
    | .ok .deq => true
    | .ok (.read _ _) => true
    | .ok (.openSession _) | .ok (.write _) | .ok .close => false
    | .ok (.lookup _) | .ok (.evtPress _) | .ok (.evtRelease _) | .ok (.enq _) => false
    | .error _ => false

/-- The order the two copies and the two cursors keep in the stale alternative (R39): going round from `tail_seen` one
meets `tail`, then `head_seen`, then `head`, and less than one whole lap lies between the first and the last. -/
structure StaleBlock.Inv {aw : Nat} (sb : StaleBlock aw) : Prop where
  block     : sb.toBlock.Inv
  tailBehind : (sb.tail - sb.tailSeen).toNat + sb.toBlock.count < depth aw
  headBehind : (sb.headSeen - sb.tail).toNat ≤ sb.toBlock.count

end Sys2Proof.Machine
end

