-- ==== Sys2Proof/Certificates/Slice0/Obligations.lean ====
section
/-! DEFINITION. The statements for the provers. D<n> in a docstring is a row of 92_eei_decisions.md: a point where the
spec says that the choice is its own. -/

open Sys2Proof Sys2Proof.Machine

/-! ### Encoding -/

/-- Decoding an encoded operation gives it back, with every operand at every value (30_encoding.md; the words are D8;
that `encode` presents unread side inputs as 0 is the MODEL'S OWN choice, log entry 10). -/
def Obligations.EncodedOperationDecodesToItself : Prop :=
  ∀ i : Instr, decode (encode i) = .ok i

/-- Every word of port P and of port T is the word of the operation it decodes to, and a word of port C that decodes has
the command code of its operation: no word has two meanings and port P has no reserved code (D8). -/
def Obligations.CommandWordsHaveOneMeaning : Prop :=
  (∀ w : BitVec 9, encode (decodeP w) = .p w) ∧
  (∀ idx : TIndex, encode (decodeT idx) = .t idx) ∧
  (∀ (pins : CPins) (i : Instr), decodeC pins = .ok i → ∃ pins', encode i = .c pins' ∧ pins'.cmd = pins.cmd)

/-- The rejected words of port C are exactly the codes 5 to 7, each by its name; ports P and T reject nothing (D8, D10). -/
def Obligations.OnlyPortCCodesFiveToSevenAreReserved : Prop :=
  (∀ pins : CPins, decode (.c pins) = .error (.reservedPortC pins.cmd) ↔ 5 ≤ pins.cmd.toNat) ∧
  (∀ pins : CPins, pins.cmd.toNat < 5 → ∃ i, decode (.c pins) = .ok i) ∧
  (∀ w : BitVec 9, ∃ i, decode (.p w) = .ok i) ∧
  (∀ idx : TIndex, ∃ i, decode (.t idx) = .ok i)

/-- Words written out from R52 and R54 decode to the operations they stand for. -/
def Obligations.SampleWordsDecode : Prop :=
  decode (.t 0b000011110) = .ok (.lookup 0x1E) ∧
  decode (.p 0b000011110) = .ok (.evtPress 0x1E) ∧
  decode (.p 0b010011110) = .ok (.evtRelease 0x1E) ∧
  decode (.p 0b101000001) = .ok (.enq 0x41) ∧
  decode (.c ⟨0b000, 9, true, true⟩) = .ok .deq ∧
  decode (.c ⟨0b001, 9, true, false⟩) = .ok (.openSession true) ∧
  decode (.c ⟨0b010, 9, false, true⟩) = .ok (.read 9 true) ∧
  decode (.c ⟨0b011, 9, false, true⟩) = .ok (.write 9) ∧
  decode (.c ⟨0b100, 9, true, true⟩) = .ok .close

/-- The decoder and the opcode table agree: the word of a decoded operation stands under that operation's row, and
under no other row of the table. -/
def Obligations.DecodedWordStandsUnderExactlyItsRow : Prop :=
  ∀ (w : PortWord) (i : Instr), decode w = .ok i →
    i.row.covers w ∧ ∀ j : Instr, j.row.covers w → j.row = i.row

/-- In a build of any length width, a word that a port can carry decodes to a well-formed operation, and the word of a
well-formed operation is one its port can carry (R5: `LENW` is an open parameter, D18). That `encode` presents
an unread length as 0 is the MODEL'S OWN choice, log entry 10. -/
def Obligations.DecodingKeepsWellFormedness : Prop :=
  ∀ (lenw : Nat),
    (∀ (w : PortWord) (i : Instr), w.fits lenw = true → decode w = .ok i → i.wellFormed lenw = true) ∧
    (∀ i : Instr, i.wellFormed lenw = true ↔ (encode i).fits lenw = true)

/-- R58: the table index of a raw byte, as the masks and shift of the source and as the three fields, and its ranges. -/
def Obligations.TableIndexMovesReleaseFlagToBitEight : Prop :=
  ∀ b : Byte,
    (tableIndex b).toNat = (b.toNat &&& 0x7F) ||| ((b.toNat &&& 0x80) <<< 1) ∧
    tableIndex b = BitVec.ofBool (rel b) ++ (0#1 ++ key b) ∧
    (rel b = false → (tableIndex b).toNat ≤ 127) ∧
    (rel b = true → 256 ≤ (tableIndex b).toNat ∧ (tableIndex b).toNat ≤ 383)

/-! ### The nine operations -/

/-- R70: `LOOKUP idx` is presented as `t_idx = idx`, answers `TABLE[idx]` and changes nothing else, in every state. -/
def Obligations.LookupAnswersTableEntry : Prop :=
  ∀ (idx : TIndex) (s : State),
    encode (.lookup idx) = .t idx ∧
    exec (.lookup idx) s = .next { s with out := { s.out with t := s.out.t ++ [Config.table idx] } }

/-- `ENQ v` stores at the pre-advance `head` unless the buffer is full, and drops without any state change when it is;
it is not handled as an event and does not read `in_use` (D21). -/
def Obligations.EnqStoresUnlessFull : Prop :=
  ∀ (v : Byte) (s : State),
    (nextIndex s.head ≠ s.tail →
      exec (.enq v) s = .next { s with
        slot := s.slot.write s.head.toNat v
        head := nextIndex s.head
        out := { s.out with p := some ⟨true, false⟩ } }) ∧
    (nextIndex s.head = s.tail →
      exec (.enq v) s = .next { s with out := { s.out with p := some ⟨false, false⟩ } })

/-- `DEQ` returns the cell at the pre-advance `tail` unless the buffer is empty; `OK` and length 0 in both cases; it
does not read `in_use` (D21). -/
def Obligations.DeqTakesOldestUnlessEmpty : Prop :=
  ∀ s : State,
    (∀ v : Byte, s.head ≠ s.tail → s.slot.read s.tail.toNat = some v →
      exec .deq s = .next { s with
        tail := nextIndex s.tail
        out := { s.out with c := some ⟨.ok, 0, some v⟩ } }) ∧
    (s.head = s.tail →
      exec .deq s = .next { s with out := { s.out with c := some ⟨.ok, 0, none⟩ } })

/-- R92: a press in an open session looks up the full index formula of its byte, which is the key itself, and enqueues
the key code unless the buffer is full; it is handled in both cases. -/
def Obligations.PressEnqueuesItsKeyCode : Prop :=
  ∀ (k : Key) (s : State), s.inUse = true →
    encode (.evtPress k) = .p (0#1 ++ (0#1 ++ k)) ∧
    tableIndex (pressByte k) = k.setWidth 9 ∧
    (nextIndex s.head ≠ s.tail →
      exec (.evtPress k) s = .next { s with
        slot := s.slot.write s.head.toNat (Config.table (tableIndex (pressByte k)))
        head := nextIndex s.head
        out := { s.out with p := some ⟨true, true⟩ } }) ∧
    (nextIndex s.head = s.tail →
      exec (.evtPress k) s = .next { s with out := { s.out with p := some ⟨false, true⟩ } })

/-- R91: a release in an open session is handled and does nothing, for any key. -/
def Obligations.ReleaseIsFilteredAndHandled : Prop :=
  ∀ (k : Key) (s : State), s.inUse = true →
    encode (.evtRelease k) = .p (0#1 ++ (1#1 ++ k)) ∧
    exec (.evtRelease k) s = .next { s with out := { s.out with p := some ⟨false, true⟩ } }

/-- While the session is closed an event of either form changes nothing and is not handled (the spec's own D12, D23). -/
def Obligations.EventsWhileClosedAreIgnored : Prop :=
  ∀ (k : Key) (s : State), s.inUse = false →
    exec (.evtPress k) s = .next { s with out := { s.out with p := some ⟨false, false⟩ } } ∧
    exec (.evtRelease k) s = .next { s with out := { s.out with p := some ⟨false, false⟩ } }

/-- R121, R122: `OPEN` tests `in_use` first, then the subscription: `BUSY` on an open session whatever `c_sub_ok` is, with
no state change; `SUBSCRIPTION_FAILED` on a closed one when `c_sub_ok = 0`, staying closed, and a later `OPEN` may succeed;
otherwise it sets `in_use` and nothing else. -/
def Obligations.OpenTestsInUseThenSubscription : Prop :=
  ∀ (subOk : Bool) (s : State),
    (s.inUse = true →
      exec (.openSession subOk) s = .next { s with out := { s.out with c := some ⟨.busy, 0, none⟩ } }) ∧
    (s.inUse = false → subOk = false →
      ∃ t, exec (.openSession subOk) s = .next t ∧
        t = { s with out := { s.out with c := some ⟨.subscriptionFailed, 0, none⟩ } } ∧
        ∃ u, exec (.openSession true) t = .next u ∧ u.inUse = true) ∧
    (s.inUse = false → subOk = true →
      exec (.openSession subOk) s =
        .next { s with inUse := true, out := { s.out with c := some ⟨.ok, 0, none⟩ } })

/-- `READ` in an open session on a buffer that holds an item: the item is taken, then delivered with the requested
length, or lost to `COPY_FAULT` (the length reported on delivery is the spec's own D13). -/
def Obligations.ReadTakesOneItemThenCopies : Prop :=
  ∀ (len : Len) (v : Byte) (s : State),
    s.inUse = true → s.head ≠ s.tail → s.slot.read s.tail.toNat = some v →
    exec (.read len true) s = .next { s with
      tail := nextIndex s.tail
      out := { s.out with c := some ⟨.ok, len, some v⟩ } } ∧
    exec (.read len false) s = .next { s with
      tail := nextIndex s.tail
      out := { s.out with c := some ⟨.copyFault, 0, none⟩ } }

/-- R105: `READ` on an empty buffer changes nothing, delivers nothing and reports the requested length with `OK`,
whatever `c_copy_ok` is. -/
def Obligations.EmptyReadReportsRequestedLength : Prop :=
  ∀ (len : Len) (copyOk : Bool) (s : State), s.inUse = true → s.head = s.tail →
    exec (.read len copyOk) s = .next { s with out := { s.out with c := some ⟨.ok, len, none⟩ } }

/-- R104: `COPY_FAULT` does not undo the dequeue and changes nothing else; the next `READ` delivers the item after the
lost one; a `READ` of an empty buffer cannot return it. -/
def Obligations.CopyFaultLosesTheItem : Prop :=
  ∀ (len : Len) (v : Byte) (s : State), s.inUse = true →
    (s.head ≠ s.tail → s.slot.read s.tail.toNat = some v →
      ∃ t r, exec (.read len false) s = .next t ∧ t.out.c = some r ∧ r.status = .copyFault ∧ r.data = none ∧
        t.tail = nextIndex s.tail ∧ t.head = s.head ∧ t.slot = s.slot ∧ t.inUse = true ∧
        ∀ (len' : Len) (w : Byte), t.head ≠ t.tail → s.slot.read (nextIndex s.tail).toNat = some w →
          ∃ u r', exec (.read len' true) t = .next u ∧ u.out.c = some r' ∧ r'.data = some w) ∧
    (s.head = s.tail → ∀ (copyOk : Bool) (t : State), exec (.read len copyOk) s = .next t →
      ∃ r, t.out.c = some r ∧ r.status ≠ .copyFault)

/-- `WRITE` in an open session reports the input length and changes no state (R106). Its word has the code 3 and the length
(D8); that `encode` presents the unread side inputs `c_sub_ok` and `c_copy_ok` as 0 is the MODEL'S OWN choice (log entry 10):
R54 says only that they are ignored. -/
def Obligations.WriteReportsLengthOnly : Prop :=
  ∀ (len : Len) (s : State), s.inUse = true →
    encode (.write len) = .c ⟨0b011, len, false, false⟩ ∧
    exec (.write len) s = .next { s with out := { s.out with c := some ⟨.ok, len, none⟩ } }

/-- `CLOSE` in an open session clears `in_use` and changes nothing else of the block. -/
def Obligations.CloseClearsInUseOnly : Prop :=
  ∀ s : State, s.inUse = true →
    exec .close s = .next { s with inUse := false, out := { s.out with c := some ⟨.ok, 0, none⟩ } }

/-- `READ`, `WRITE` and `CLOSE` on a closed session change nothing and answer `NOT_OPEN` with length 0 (D11). -/
def Obligations.ClosedSessionCallsAnswerNotOpen : Prop :=
  ∀ (len : Len) (copyOk : Bool) (s : State), s.inUse = false →
    exec (.read len copyOk) s = .next { s with out := { s.out with c := some ⟨.notOpen, 0, none⟩ } } ∧
    exec (.write len) s = .next { s with out := { s.out with c := some ⟨.notOpen, 0, none⟩ } } ∧
    exec .close s = .next { s with out := { s.out with c := some ⟨.notOpen, 0, none⟩ } }

/-- R110: a second `OPEN` fails with `BUSY` and leaves cursors, slots and session as they were. -/
def Obligations.SecondOpenIsBusyAndDisturbsNothing : Prop :=
  ∀ (subOk : Bool) (s : State), s.inUse = true →
    ∃ t r, exec (.openSession subOk) s = .next t ∧ t.out.c = some r ∧ r.status = .busy ∧
      t.head = s.head ∧ t.tail = s.tail ∧ t.slot = s.slot ∧ t.inUse = true

/-- A dequeue of a cell that no enqueue has written stops the machine with the fault named for it: the MODEL'S OWN
choice for a case no run reaches (log entry 4; U5 allows it). -/
def Obligations.DequeueOfUnwrittenCellFaults : Prop :=
  ∀ (len : Len) (copyOk : Bool) (s : State), s.head ≠ s.tail → s.slot.read s.tail.toNat = none →
    exec .deq s = .fault (.unwrittenSlot s.tail.toNat) ∧
    (s.inUse = true → exec (.read len copyOk) s = .fault (.unwrittenSlot s.tail.toNat))

/-- R72: a press of key `K` puts `TABLE[K]` in the cell the next `head` slot names, 0 included, and `LOOKUP K` answers
the same value. -/
def Obligations.PressAndLookupTranslateAlike : Prop :=
  ∀ (k : Key) (s : State), s.inUse = true → nextIndex s.head ≠ s.tail →
    ∃ t u, exec (.evtPress k) s = .next t ∧
      t.slot.read s.head.toNat = some (Config.table (k.setWidth 9)) ∧
      exec (.lookup (k.setWidth 9)) s = .next u ∧
      u.out.t = s.out.t ++ [Config.table (k.setWidth 9)]

/-- A press into an empty open buffer and a `READ` after it: the `READ` delivers `TABLE[K]` as data whatever the value,
0 included (D14; the delivered length is D13). -/
def Obligations.PressedKeyCodeIsDeliveredEvenIfZero : Prop :=
  ∀ (k : Key) (len : Len) (s : State), s.inUse = true → s.head = s.tail →
    ∃ t u, exec (.evtPress k) s = .next t ∧ exec (.read len true) t = .next u ∧
      u.out.c = some ⟨.ok, len, some (Config.table (k.setWidth 9))⟩ ∧ u.head = u.tail

/-- R93: an event in an open session is always handled, whatever its byte and whatever the buffer holds, and shows no
status on port C. -/
def Obligations.EventInOpenSessionIsAlwaysHandled : Prop :=
  ∀ (k : Key) (i : Instr) (s : State), s.inUse = true → (i = .evtPress k ∨ i = .evtRelease k) →
    ∃ t stored, exec i s = .next t ∧ t.out.p = some ⟨stored, true⟩ ∧ t.out.c = s.out.c

/-! ### The cursors and the slot RAM -/

/-- R16: the three forms of `full`, the two of `empty`, and `count + space = C - 1`, at every depth. -/
def Obligations.DerivedPredicatesAgree : Prop :=
  ∀ (aw : Nat) (b : Block aw), legalWidth aw = true →
    ((b.count : Int) = ((b.head.toNat : Int) - b.tail.toNat) % (depth aw : Int)) ∧
    ((b.space : Int) = ((b.tail.toNat : Int) - b.head.toNat - 1) % (depth aw : Int)) ∧
    b.count + b.space = depth aw - 1 ∧
    (b.empty = true ↔ b.head = b.tail) ∧
    (b.empty = true ↔ b.count = 0) ∧
    (b.full = true ↔ b.count = depth aw - 1) ∧
    (b.full = true ↔ nextIndex b.head = b.tail) ∧
    (b.full = true ↔ b.space = 0)

/-- R77: the arithmetic of the cursors in numbers: the masked increment with its wrap, the two cases of the difference,
the ranges, and the values at the two ends. -/
def Obligations.CursorArithmeticIsModuloDepth : Prop :=
  ∀ (aw : Nat) (x : BitVec aw) (b : Block aw), legalWidth aw = true →
    (nextIndex x).toNat = (x.toNat + 1) &&& (depth aw - 1) ∧
    (x.toNat = depth aw - 1 → (nextIndex x).toNat = 0) ∧
    (b.tail.toNat ≤ b.head.toNat → b.count = b.head.toNat - b.tail.toNat) ∧
    (b.head.toNat < b.tail.toNat → b.count = b.head.toNat + depth aw - b.tail.toNat) ∧
    b.count ≤ depth aw - 1 ∧
    b.space = depth aw - 1 - b.count ∧
    (b.head = b.tail → b.count = 0 ∧ b.space = depth aw - 1) ∧
    (nextIndex b.head = b.tail → b.count = depth aw - 1 ∧ b.space = 0)

/-- Two slot RAMs in canonical form that read alike are the same data. -/
def Obligations.CanonicalSlotsAreEqualIfTheyReadAlike : Prop :=
  ∀ m m' : Memory, m.wf → m'.wf → (∀ a, m.read a = m'.read a) → m = m'

/-! ### What each operation leaves alone -/

/-- R38: an operation of port P never writes `tail` or `in_use`, one of port C never writes `head` or any slot, a
lookup writes nothing of the block. -/
def Obligations.EachPortWritesOnlyWhatItOwns : Prop :=
  ∀ (i : Instr) (s t : State), exec i s = .next t →
    (i.port = .p → t.tail = s.tail ∧ t.inUse = s.inUse) ∧
    (i.port = .c → t.head = s.head ∧ t.slot = s.slot) ∧
    (i.port = .t → t.toBlock = s.toBlock)

/-- Frame of the operations that can store (`ENQ`, `EVT.PRESS`): `tail`, `in_use`, what is still to be presented and the
answers of the other ports stay; `head` stays or advances by one; every cell but the one at the pre-advance `head` reads
as before; and if nothing was stored the whole block stays. -/
def Obligations.StoringOperationsFrame : Prop :=
  ∀ (i : Instr) (s t : State), (∃ v, i = .enq v) ∨ (∃ k, i = .evtPress k) → exec i s = .next t →
    t.tail = s.tail ∧ t.inUse = s.inUse ∧ t.script = s.script ∧ t.out.t = s.out.t ∧ t.out.c = s.out.c ∧
    (t.head = s.head ∨ t.head = nextIndex s.head) ∧
    (∀ a : Nat, a ≠ s.head.toNat → t.slot.read a = s.slot.read a) ∧
    (∀ r : PResult, t.out.p = some r → r.ok = false → t.toBlock = s.toBlock)

/-- Frame of the operations that store nothing: every cell reads as before and `head` stays; `tail` stays but for `DEQ`
and `READ`, which advance it by at most one; `in_use` stays but for `OPEN` and `CLOSE`; what is still to be presented
stays, and so do the answers of the other ports. -/
def Obligations.NonStoringOperationsFrame : Prop :=
  ∀ (i : Instr) (s t : State), (∀ v, i ≠ .enq v) → (∀ k, i ≠ .evtPress k) → exec i s = .next t →
    (∀ a : Nat, t.slot.read a = s.slot.read a) ∧ t.head = s.head ∧ t.script = s.script ∧
    (t.tail = s.tail ∨ t.tail = nextIndex s.tail) ∧
    (t.tail ≠ s.tail → i = .deq ∨ ∃ n k, i = .read n k) ∧
    (t.inUse ≠ s.inUse → i = .close ∨ ∃ subOk, i = .openSession subOk) ∧
    (i.port ≠ .t → t.out.t = s.out.t) ∧
    (i.port ≠ .p → t.out.p = s.out.p) ∧
    (i.port ≠ .c → t.out.c = s.out.c)

/-- The transitions of the session, complete: `in_use` changes exactly on a subscribed `OPEN` of a closed session and on
a `CLOSE` of an open one. -/
def Obligations.SessionBitChangesOnlyAtOpenAndClose : Prop :=
  ∀ (i : Instr) (s t : State), exec i s = .next t →
    (t.inUse ≠ s.inUse ↔ (i = .openSession true ∧ s.inUse = false) ∨ (i = .close ∧ s.inUse = true))

/-- Each error status of port C is answered exactly under its condition, in the fixed order of tests (`NOT_OPEN` is the
spec's own D11, the order within `READ` its own D22). -/
def Obligations.EachStatusHasExactlyItsCondition : Prop :=
  ∀ (i : Instr) (s t : State), i.port = .c → exec i s = .next t →
    ∃ r, t.out.c = some r ∧
      (r.status = .busy ↔ s.inUse = true ∧ ∃ k, i = .openSession k) ∧
      (r.status = .subscriptionFailed ↔ s.inUse = false ∧ i = .openSession false) ∧
      (r.status = .copyFault ↔ s.inUse = true ∧ s.head ≠ s.tail ∧ ∃ n, i = .read n false) ∧
      (r.status = .notOpen ↔ s.inUse = false ∧ (i = .close ∨ (∃ n, i = .write n) ∨ ∃ n k, i = .read n k)) ∧
      r.status ≠ .illegalCmd ∧
      (r.status ≠ .ok → r.ret = 0 ∧ r.data = none)

/-- R108: `CLOSE` and then `OPEN` leave cursors, slots and the queue as they were; items not read in one session are
delivered, oldest first, in the next; while the session is closed the bare `ENQ` and `DEQ` still change the buffer. -/
def Obligations.BufferSurvivesCloseAndOpen : Prop :=
  ∀ s : State, s.inUse = true →
    ∃ t u, exec .close s = .next t ∧ exec (.openSession true) t = .next u ∧
      t.inUse = false ∧ u.inUse = true ∧
      t.head = s.head ∧ t.tail = s.tail ∧ t.slot = s.slot ∧
      u.head = s.head ∧ u.tail = s.tail ∧ u.slot = s.slot ∧ u.toBlock.queue = s.toBlock.queue ∧
      (∀ (len : Len) (v : Byte), s.head ≠ s.tail → s.slot.read s.tail.toNat = some v →
        ∃ w r, exec (.read len true) u = .next w ∧ w.out.c = some r ∧ r.data = some v) ∧
      (∀ v : Byte, nextIndex s.head ≠ s.tail →
        ∃ w, exec (.enq v) t = .next w ∧ w.head = nextIndex s.head ∧ w.inUse = false) ∧
      (∀ v : Byte, s.head ≠ s.tail → s.slot.read s.tail.toNat = some v →
        ∃ w, exec .deq t = .next w ∧ w.tail = nextIndex s.tail ∧ w.inUse = false)

/-! ### The step -/

/-- A step whose line carries one word that decodes runs exactly that operation, on the machine with the line taken
off the script and no answer shown yet. -/
def Obligations.StepRunsTheDecodedOperation : Prop :=
  ∀ (s : State) (w : PortWord) (i : Instr) (rest : List StepInput),
    s.script = StepInput.ofWord w :: rest → decode w = .ok i →
    step s = exec i { s with script := rest, out := StepOut.quiet }

/-- The word of a table row, placed with `withFetchWord`, is what the very next step runs, with the script as it was. -/
def Obligations.PlacedTableWordRunsNext : Prop :=
  ∀ (s : State) (nbits w : Nat) (i : Instr), decodeTableWord nbits w = some i →
    step (s.withFetchWord nbits w) = exec i { s with out := StepOut.quiet }

/-- A step whose line carries a reserved code of port C and nothing else answers `ILLEGAL_CMD` and leaves the block as it
was, open or closed (the spec's own D10). -/
def Obligations.ReservedCodeAnswersIllegalCommand : Prop :=
  ∀ (s : State) (pins : CPins) (rest : List StepInput),
    s.script = StepInput.ofWord (.c pins) :: rest → 5 ≤ pins.cmd.toNat →
    step s = .next { s with
      script := rest
      out := { t := [], p := none, c := some ⟨.illegalCmd, 0, none⟩ } }

/-- With nothing presented a step changes nothing of the block (D1; the empty script is the MODEL'S OWN, log entry 5). -/
def Obligations.StepWithNothingPresentedIsIdle : Prop :=
  ∀ s : State, s.script = [] → step s = .next { s with out := StepOut.quiet }

/-- A step with an operation on both ports: each runs on the block at the start of the step, and the step takes `head`
and the slots from the one, `tail` and `in_use` from the other, and each port's own answer (D2). -/
def Obligations.StepJoinsBothPorts : Prop :=
  ∀ (s sp sc : State) (line : StepInput) (rest : List StepInput) (w : BitVec 9) (pins : CPins) (i : Instr),
    s.script = line :: rest → line.p = some w → line.c = some pins → decodeC pins = .ok i →
    exec (decodeP w) { s with script := rest, out := StepOut.quiet } = .next sp →
    exec i { s with script := rest, out := StepOut.quiet } = .next sc →
    step s = .next {
      head := sp.head, slot := sp.slot, tail := sc.tail, inUse := sc.inUse, script := rest
      out := { t := line.t.map Config.table, p := sp.out.p, c := sc.out.c } }

/-- A reserved code on port C keeps neither port P nor port T from running: a step with both takes the whole block from port
P's operation and answers `ILLEGAL_CMD` on port C. The MODEL'S OWN choice (log entry 21): R60 can be read to say that such a
step changes no state at all. -/
def Obligations.ReservedCodeDoesNotStopPortP : Prop :=
  ∀ (s sp : State) (line : StepInput) (rest : List StepInput) (w : BitVec 9) (pins : CPins),
    s.script = line :: rest → line.p = some w → line.c = some pins → 5 ≤ pins.cmd.toNat →
    exec (decodeP w) { s with script := rest, out := StepOut.quiet } = .next sp →
    step s = .next {
      toBlock := sp.toBlock, script := rest
      out := { t := line.t.map Config.table, p := sp.out.p, c := some ⟨.illegalCmd, 0, none⟩ } }

/-- The machine's step is the step of the block at depth 4096 with the table `TABLE`, so what is said of the block at
every depth and every table is said of the machine. -/
def Obligations.MachineStepIsBlockStep : Prop :=
  ∀ (s : State) (line : StepInput) (rest : List StepInput), s.script = line :: rest →
    (∀ b o, s.toBlock.step Config.table line = .ok (b, o) →
      step s = .next { toBlock := b, script := rest, out := o }) ∧
    (∀ f, s.toBlock.step Config.table line = .error f → step s = .fault f)

/-- A step with an operation on both ports equals one of the two sequential orders, case by case by the table of
20_memory.md section 3 (the same-step rule is the spec's own D2): C first where the buffer is empty and port C dequeues; P
first in every other case; and C first as well, so either order, (a) where port C dequeues and the buffer is neither empty
nor full, (b) where port C does not dequeue and leaves `in_use` as it is, (c) where port C does not dequeue and port P
carries an `ENQ`, (d) where port P makes no enqueue test and port C leaves `in_use` as it is. A reserved code on port C counts as port C not
dequeuing (log entry 21). -/
def Obligations.SameStepEqualsASequentialOrder : Prop :=
  ∀ (aw : Nat) (T : Table) (inp : StepInput) (b : Block aw),
    (b.empty = true → inp.dequeues = true →
      b.together T inp = b.oneAfterTheOther T inp.cOnly inp.pOnly) ∧
    (b.empty = false ∨ inp.dequeues = false →
      b.together T inp = b.oneAfterTheOther T inp.pOnly inp.cOnly) ∧
    (b.empty = false → b.full = false → inp.dequeues = true →
      b.together T inp = b.oneAfterTheOther T inp.cOnly inp.pOnly) ∧
    (∀ b' o', b.step T inp.cOnly = .ok (b', o') → b'.inUse = b.inUse → inp.dequeues = false →
      b.together T inp = b.oneAfterTheOther T inp.cOnly inp.pOnly) ∧
    (∀ v, inp.p.map decodeP = some (.enq v) → inp.dequeues = false →
      b.together T inp = b.oneAfterTheOther T inp.cOnly inp.pOnly) ∧
    (∀ b' o', b.step T inp.cOnly = .ok (b', o') → b'.inUse = b.inUse →
      (∀ w, inp.p = some w → testsSpace b.inUse (decodeP w) = false) →
      b.together T inp = b.oneAfterTheOther T inp.cOnly inp.pOnly)

/-- In one step a cursor moves by nothing or by exactly one with wrap: `head` exactly when port P answers that it stored,
`tail` exactly when port C delivered an item or lost one. -/
def Obligations.CursorsMoveByAtMostOne : Prop :=
  ∀ (aw : Nat) (T : Table) (inp : StepInput) (b b' : Block aw) (o : StepOut), b.step T inp = .ok (b', o) →
    (b'.head = if o.p.any (·.ok) then nextIndex b.head else b.head) ∧
    (b'.tail = if o.c.any (fun r => r.dvalid || r.status == .copyFault) then nextIndex b.tail else b.tail)

/-- At any length width a step of a machine whose lengths fit gives a machine whose lengths fit (D18). -/
def Obligations.StepKeepsLengthsInTheirWidth : Prop :=
  ∀ (lenw : Nat) (s t : State), s.fits lenw = true → step s = .next t → t.fits lenw = true

/-- Lengths are copied and decide nothing (D18): with every presented length replaced by a function of it that keeps 0, a
step does the same to the block and answers the same but for `c_ret`, which is replaced by the same function. So a build of
length width `LENW` is the same block with its lengths taken modulo `2^LENW`, whatever `LENW` is. -/
def Obligations.LengthsAreCopiedAndDecideNothing : Prop :=
  ∀ (aw : Nat) (T : Table) (f : Len → Len) (inp : StepInput) (b : Block aw), f 0 = 0 →
    b.step T (inp.mapLen f) = (b.step T inp).map fun r => (r.1, r.2.mapRet f)

/-! ### Invariants and the queue -/

/-- The machine after reset: closed, both cursors 0 (the value 0 is D6), empty, no cell holding a value. -/
def Obligations.ResetIsEmptyAndClosed : Prop :=
  State.reset.head = 0 ∧ State.reset.tail = 0 ∧ State.reset.inUse = false ∧
  State.reset.toBlock.count = 0 ∧ State.reset.toBlock.space = 4095 ∧
  State.reset.toBlock.empty = true ∧ State.reset.toBlock.full = false ∧
  (∀ a : Nat, State.reset.slot.read a = none)

/-- The machine after reset meets the invariant. -/
def Obligations.ResetMeetsTheInvariant : Prop := State.reset.Inv

/-- Every step keeps the invariant of R17: the slot RAM canonical and in range, every cell of the valid region written. -/
def Obligations.StepKeepsTheInvariant : Prop :=
  ∀ s t : State, s.Inv → step s = .next t → t.Inv

/-- From a state that meets the invariant no step ever stops: whatever is presented, there is a next state (no run reads
a cell before it is written, and no error of the block is fatal). -/
def Obligations.StepNeverStopsUnderTheInvariant : Prop :=
  ∀ s : State, s.Inv → ∃ t, step s = .next t

/-- The block of every legal depth and every table is a bounded queue of `C - 1` items: one step of the block, whatever is
presented, is one step of the queue on its contents, with the same answers on all three ports (what is presented includes an operation
on port P beside a reserved code on port C, where both follow log entry 21). -/
def Obligations.BlockRefinesTheBoundedQueue : Prop :=
  ∀ (aw : Nat) (T : Table) (inp : StepInput) (b : Block aw), legalWidth aw = true → b.Inv →
    ∃ b' o, b.step T inp = .ok (b', o) ∧ b'.Inv ∧ b'.queue.length = b'.count ∧
      b.toFifo.step T (depth aw - 1) inp = (b'.toFifo, o)

/-- The same over whole runs: every sequence of steps of the block answers as the bounded queue does. -/
def Obligations.RunsOfTheBlockAreRunsOfTheQueue : Prop :=
  ∀ (aw : Nat) (T : Table) (inps : List StepInput) (b : Block aw), legalWidth aw = true → b.Inv →
    ∃ b' os, b.run T inps = .ok (b', os) ∧ b'.Inv ∧
      b.toFifo.run T (depth aw - 1) inps = (b'.toFifo, os)

/-- FIFO order over every run without a `COPY_FAULT`, interleaved in any way and across any number of wraps: what was
buffered at the start followed by what was stored is what was delivered followed by what is buffered at the end. -/
def Obligations.ItemsAreDeliveredInArrivalOrder : Prop :=
  ∀ (aw : Nat) (T : Table) (inps : List StepInput) (b b' : Block aw) (os : List StepOut),
    legalWidth aw = true → b.Inv → b.run T inps = .ok (b', os) → (∀ o ∈ os, lostItem o = false) →
    b.queue ++ storedIn T inps os = deliveredIn os ++ b'.queue

/-- Over every run the items stored less the items taken is the change of `count`, which stays at most `C - 1`. -/
def Obligations.StoredLessTakenIsTheChangeOfCount : Prop :=
  ∀ (aw : Nat) (T : Table) (inps : List StepInput) (b b' : Block aw) (os : List StepOut),
    legalWidth aw = true → b.Inv → b.run T inps = .ok (b', os) →
    b.count + (storedIn T inps os).length = b'.count + takenIn os ∧ b'.count ≤ depth aw - 1

/-- R80: drop-newest. A burst of enqueues into an empty buffer with no dequeue among them leaves the first `C - 1` values
in arrival order; exactly those are answered `p_ok = 1`, and every later one is dropped. On a full buffer an enqueue fails
with nothing overwritten, until a dequeue frees a slot. -/
def Obligations.BurstKeepsTheFirstValues : Prop :=
  ∀ (aw : Nat) (T : Table) (b : Block aw), legalWidth aw = true → b.Inv →
    (∀ vs : List Byte, b.empty = true →
      ∃ b' os, b.run T (vs.map fun v => Line.op (.enq v)) = .ok (b', os) ∧
        b'.queue = vs.take (depth aw - 1) ∧
        os.map (·.p) = (List.range vs.length).map fun n => some ⟨decide (n < depth aw - 1), false⟩) ∧
    (∀ v w : Byte, b.full = true →
      b.step T (Line.op (.enq v)) = .ok (b, { t := [], p := some ⟨false, false⟩, c := none }) ∧
      ∃ b' b'' o, b.step T (Line.op .deq) = .ok (b', o) ∧ b'.queue = b.queue.drop 1 ∧
        b'.step T (Line.op (.enq w)) = .ok (b'', { t := [], p := some ⟨true, false⟩, c := none }) ∧
        b''.queue = b.queue.drop 1 ++ [w])

/-- Where the queue lies in the slot RAM does not matter: two blocks with the same contents and session answer every
sequence of steps alike and end with the same contents. -/
def Obligations.BehaviourDoesNotDependOnPosition : Prop :=
  ∀ (aw : Nat) (T : Table) (inps : List StepInput) (b₁ b₂ : Block aw),
    legalWidth aw = true → b₁.Inv → b₂.Inv → b₁.toFifo = b₂.toFifo →
    ∃ c₁ c₂ os, b₁.run T inps = .ok (c₁, os) ∧ b₂.run T inps = .ok (c₂, os) ∧ c₁.toFifo = c₂.toFifo

/-! ### The stale alternative (R39; not adopted by the spec, D3) -/

/-- Every step of the stale alternative keeps its invariant, whatever the free choices of the two copies. -/
def Obligations.StaleStepKeepsItsInvariant : Prop :=
  ∀ (aw lagP lagC : Nat) (T : Table) (inp : StepInput) (sb sb' : StaleBlock aw) (o : StepOut),
    legalWidth aw = true → sb.Inv → sb.step T lagP lagC inp = .ok (sb', o) → sb'.Inv

/-- Under its invariant the stale alternative never stops; what it stores goes into a free cell, exactly as the exact
block would store it; what it takes is what the exact block would take. -/
def Obligations.StaleCopiesOnlyHideSpaceAndItems : Prop :=
  ∀ (aw lagP lagC : Nat) (T : Table) (inp : StepInput) (sb : StaleBlock aw), legalWidth aw = true → sb.Inv →
    ∃ sb' o be oe, sb.step T lagP lagC inp = .ok (sb', o) ∧ sb.toBlock.step T inp = .ok (be, oe) ∧
      (sb'.head ≠ sb.head → nextIndex sb.head ≠ sb.tail ∧ sb'.head = be.head ∧ sb'.slot = be.slot ∧ o.p = oe.p) ∧
      (sb'.tail ≠ sb.tail → sb.head ≠ sb.tail ∧ sb'.tail = be.tail ∧ o.c = oe.c) ∧
      sb'.inUse = be.inUse

/-- With copies that always catch up wholly the stale alternative is the exact block. -/
def Obligations.StaleWithoutLagIsExact : Prop :=
  ∀ (aw lagP lagC : Nat) (T : Table) (inp : StepInput) (sb : StaleBlock aw),
    depth aw ≤ lagP → depth aw ≤ lagC →
    ∀ b o, sb.toBlock.step T inp = .ok (b, o) →
      ∃ sb', sb.step T lagP lagC inp = .ok (sb', o) ∧ sb'.toBlock = b

/-- The numbers of the statuses are those of 30_encoding.md section 4, and no two statuses share one (D9). -/
def Obligations.StatusCodesAreDistinct : Prop :=
  [Status.ok, .busy, .subscriptionFailed, .copyFault, .notOpen, .illegalCmd].map Status.code = [0, 1, 2, 3, 6, 7] ∧
  ∀ a b : Status, a.code = b.code → a = b
end

