-- ==== Sys2Proof/Laws/Memory.lean ====
section
/-! SUPPORT. The slot RAM: read after write, and that every memory operation keeps the canonical form. -/

namespace Sys2Proof.Machine

@[simp] theorem Memory.read_nil (a : Nat) : Memory.read [] a = none := rfl

/-- A cell reads as what was written to it, every other cell as before. -/
theorem Memory.read_write (m : Memory) (i a : Nat) (v : Byte) :
    Memory.read (m.write i v) a = if a = i then some v else m.read a := by
  induction m with
  | nil => simp [Memory.write, Memory.read, eq_comm]
  | cons c m ih =>
    by_cases h1 : i < c.1
    · by_cases h : a = i
      · simp [Memory.write, h1, Memory.read, h]
      · simp [Memory.write, h1, Memory.read, h, Ne.symm h]
    · by_cases h2 : c.1 = i
      · by_cases h : a = i
        · simp [Memory.write, h2, Memory.read, h]
        · simp [Memory.write, h2, Memory.read, h, Ne.symm h]
      · by_cases h3 : c.1 = a
        · subst h3
          simp [Memory.write, h1, h2, Memory.read]
        · simp [Memory.write, h1, h2, Memory.read, h3, ih]

theorem Memory.read_write_same (m : Memory) (i : Nat) (v : Byte) : Memory.read (m.write i v) i = some v := by
  simp [Memory.read_write]

theorem Memory.read_write_other (m : Memory) {i a : Nat} (v : Byte) (h : a ≠ i) :
    Memory.read (m.write i v) a = m.read a := by
  simp [Memory.read_write, h]

/-- The cells after a write are the written one and cells there before. -/
theorem Memory.mem_write {m : Memory} {i : Nat} {v : Byte} {c : Host.Cell} (h : c ∈ m.write i v) :
    c = (i, v) ∨ c ∈ m := by
  induction m with
  | nil => simpa [Memory.write] using h
  | cons d m ih =>
    simp only [Memory.write] at h
    split at h
    · simpa using h
    · split at h
      · rcases List.mem_cons.1 h with h | h
        · exact .inl h
        · exact .inr (List.mem_cons_of_mem _ h)
      · rcases List.mem_cons.1 h with h | h
        · exact .inr (h ▸ List.mem_cons_self)
        · exact (ih h).imp id (List.mem_cons_of_mem _)

theorem Memory.wf_nil : Memory.wf [] := List.Pairwise.nil

theorem Memory.wf_cons {c : Host.Cell} {m : Memory} :
    Memory.wf (c :: m) ↔ (∀ d ∈ m, c.1 < d.1) ∧ Memory.wf m := by
  simp [Memory.wf]

/-- Writing keeps the canonical form. -/
theorem Memory.write_wf {m : Memory} (h : m.wf) (i : Nat) (v : Byte) : (m.write i v).wf := by
  induction m with
  | nil => exact Memory.wf_cons.2 ⟨by simp, Memory.wf_nil⟩
  | cons c m ih =>
    obtain ⟨hc, hm⟩ := Memory.wf_cons.1 h
    simp only [Memory.write]
    split
    · rename_i hlt
      refine Memory.wf_cons.2 ⟨fun d hd => ?_, h⟩
      rcases List.mem_cons.1 hd with rfl | hd
      · exact hlt
      · exact lt_trans hlt (hc d hd)
    · split
      · rename_i heq
        exact Memory.wf_cons.2 ⟨fun d hd => heq ▸ hc d hd, hm⟩
      · rename_i hnlt hne
        refine Memory.wf_cons.2 ⟨fun d hd => ?_, ih hm⟩
        rcases Memory.mem_write hd with rfl | hd
        · exact lt_of_le_of_ne (not_lt.1 hnlt) hne
        · exact hc d hd

/-- Writing inside the index space keeps every cell inside it. -/
theorem Memory.write_inRange {m : Memory} {n i : Nat} {v : Byte} (h : ∀ c ∈ m, c.1 < n) (hi : i < n) :
    ∀ c ∈ m.write i v, c.1 < n := fun c hc => by
  rcases Memory.mem_write hc with rfl | hc
  · exact hi
  · exact h c hc

/-- The slot RAM after reset is canonical. -/
theorem State.reset_slot_wf : State.reset.slot.wf := Memory.wf_nil

end Sys2Proof.Machine
end

