-- ==== Sys2Proof/Laws/PerInstr.lean ====
section
/-! SUPPORT. What is said of every operation as syntax: one lemma per constructor. -/

/-- The encoded word of an operation stands under the operation's row of the opcode table. -/
def Sys2Proof.Laws.WordFitsRow.Statement (i : Sys2Proof.Instr) : Prop :=
  i.row.covers (Sys2Proof.encode i)

theorem Sys2Proof.Laws.WordFitsRow.lookup (idx : Sys2Proof.TIndex) :
    Sys2Proof.Laws.WordFitsRow.Statement (.lookup idx) :=
  ⟨rfl, idx.isLt, Nat.and_zero _⟩

theorem Sys2Proof.Laws.WordFitsRow.evtPress (key : Sys2Proof.Key) :
    Sys2Proof.Laws.WordFitsRow.Statement (.evtPress key) :=
  ⟨rfl, BitVec.isLt _, by
    have : ∀ k : Sys2Proof.Key, (0#1 ++ (0#1 ++ k)).toNat &&& 0x180 = 0x000 := by decide
    exact this key⟩

theorem Sys2Proof.Laws.WordFitsRow.evtRelease (key : Sys2Proof.Key) :
    Sys2Proof.Laws.WordFitsRow.Statement (.evtRelease key) :=
  ⟨rfl, BitVec.isLt _, by
    have : ∀ k : Sys2Proof.Key, (0#1 ++ (1#1 ++ k)).toNat &&& 0x180 = 0x080 := by decide
    exact this key⟩

theorem Sys2Proof.Laws.WordFitsRow.enq (v : Sys2Proof.Byte) :
    Sys2Proof.Laws.WordFitsRow.Statement (.enq v) :=
  ⟨rfl, BitVec.isLt _, by
    have : ∀ v : Sys2Proof.Byte, (1#1 ++ v).toNat &&& 0x100 = 0x100 := by decide
    exact this v⟩

theorem Sys2Proof.Laws.WordFitsRow.deq : Sys2Proof.Laws.WordFitsRow.Statement .deq :=
  ⟨rfl, BitVec.isLt _, by show (0#3).toNat &&& 0x7 = 0x0; decide⟩

theorem Sys2Proof.Laws.WordFitsRow.openSession (subOk : Bool) :
    Sys2Proof.Laws.WordFitsRow.Statement (.openSession subOk) :=
  ⟨rfl, BitVec.isLt _, by show (1#3).toNat &&& 0x7 = 0x1; decide⟩

theorem Sys2Proof.Laws.WordFitsRow.read (len : Sys2Proof.Len) (copyOk : Bool) :
    Sys2Proof.Laws.WordFitsRow.Statement (.read len copyOk) :=
  ⟨rfl, BitVec.isLt _, by show (2#3).toNat &&& 0x7 = 0x2; decide⟩

theorem Sys2Proof.Laws.WordFitsRow.write (len : Sys2Proof.Len) :
    Sys2Proof.Laws.WordFitsRow.Statement (.write len) :=
  ⟨rfl, BitVec.isLt _, by show (3#3).toNat &&& 0x7 = 0x3; decide⟩

theorem Sys2Proof.Laws.WordFitsRow.close : Sys2Proof.Laws.WordFitsRow.Statement .close :=
  ⟨rfl, BitVec.isLt _, by show (4#3).toNat &&& 0x7 = 0x4; decide⟩
end

