-- ==== Sys2Proof/Laws/Ring.lean ====
section
/-! SUPPORT. The arithmetic of the cursors at any width, and for each shared operation one lemma that says once
everything it can do. -/

namespace Sys2Proof.Machine

section cursors
variable {aw : Nat}

theorem nextIndex_sub (x y : BitVec aw) : nextIndex x - y = (x - y) + 1#aw := by
  simp only [nextIndex, BitVec.sub_eq_add_neg, BitVec.add_assoc, BitVec.add_comm (1#aw)]

theorem sub_eq_zero_iff (x y : BitVec aw) : x - y = 0#aw ↔ x = y := by
  constructor
  · intro h
    have := congrArg (· + y) h
    simpa [BitVec.sub_add_cancel] using this
  · rintro rfl
    simp

theorem toNat_succ (x : BitVec aw) (h : x + 1#aw ≠ 0#aw) : (x + 1#aw).toNat = x.toNat + 1 := by
  have hlt := x.isLt
  rcases Nat.eq_zero_or_pos aw with rfl | hpos
  · exact absurd (Subsingleton.elim _ _) h
  have h1 : 1 % 2 ^ aw = 1 := Nat.mod_eq_of_lt (Nat.one_lt_two_pow (by omega))
  rw [BitVec.toNat_add, BitVec.toNat_ofNat, h1]
  rcases Nat.lt_or_ge (x.toNat + 1) (2 ^ aw) with hl | hg
  · exact Nat.mod_eq_of_lt hl
  · exfalso
    apply h
    apply BitVec.eq_of_toNat_eq
    have : x.toNat + 1 = 2 ^ aw := by omega
    rw [BitVec.toNat_add, BitVec.toNat_ofNat, h1, this]
    simp

theorem nextIndex_sub_toNat {x y : BitVec aw} (h : nextIndex x ≠ y) :
    (nextIndex x - y).toNat = (x - y).toNat + 1 := by
  rw [nextIndex_sub]
  apply toNat_succ
  rw [← nextIndex_sub]
  exact fun he => h ((sub_eq_zero_iff _ _).1 he)

theorem sub_nextIndex_toNat {x y : BitVec aw} (h : x ≠ y) :
    (x - nextIndex y).toNat + 1 = (x - y).toNat := by
  have e : x - y = (x - nextIndex y) + 1#aw := by
    simp only [nextIndex, BitVec.sub_eq_add_neg, BitVec.neg_add, BitVec.add_assoc]
    simp
  rw [e]
  refine (toNat_succ _ ?_).symm
  rw [← e]
  exact fun he => h ((sub_eq_zero_iff _ _).1 he)

theorem add_toNat_sub (x y : BitVec aw) : y + BitVec.ofNat aw (x - y).toNat = x := by
  rw [BitVec.ofNat_toNat, BitVec.setWidth_eq, BitVec.add_comm, BitVec.sub_add_cancel]

theorem nextIndex_add (x : BitVec aw) (n : Nat) :
    nextIndex x + BitVec.ofNat aw n = x + BitVec.ofNat aw (n + 1) := by
  simp only [nextIndex, BitVec.ofNat_add, BitVec.add_assoc, BitVec.add_comm (1#aw)]

/-- The cells before `x` counted from `y` are not `x`. -/
theorem add_ofNat_ne {x y : BitVec aw} {k : Nat} (h : k < (x - y).toNat) : y + BitVec.ofNat aw k ≠ x := by
  intro he
  have : (x - y).toNat = k % 2 ^ aw := by
    rw [← he, BitVec.add_comm, BitVec.add_sub_cancel, BitVec.toNat_ofNat]
  have := Nat.mod_le k (2 ^ aw)
  omega

theorem nextIndex_ne_self (h : 1 ≤ aw) (x : BitVec aw) : nextIndex x ≠ x := by
  intro he
  have h0 : nextIndex x - x = 0#aw := (sub_eq_zero_iff _ _).2 he
  have h1 : (nextIndex x - x) = 1#aw := by
    rw [nextIndex_sub, BitVec.sub_self, BitVec.zero_add]
  rw [h1] at h0
  have := congrArg BitVec.toNat h0
  rw [BitVec.toNat_ofNat, Nat.mod_eq_of_lt (Nat.one_lt_two_pow (by omega))] at this
  simp at this

theorem nextIndex_eq_iff_count {b : Block aw} (h : 1 ≤ aw) :
    nextIndex b.head = b.tail ↔ b.count = depth aw - 1 := by
  have hlt : b.count < depth aw := (b.head - b.tail).isLt
  constructor
  · intro he
    by_contra hne
    have hs : (b.head - b.tail) + 1#aw ≠ 0#aw := by
      intro h0
      have : (b.head - b.tail).toNat = depth aw - 1 := by
        have e : b.head - b.tail = -1#aw := by
          have := congrArg (· - 1#aw) h0
          simpa [BitVec.add_sub_cancel] using this
        rw [e, BitVec.toNat_neg, BitVec.toNat_ofNat,
          Nat.mod_eq_of_lt (Nat.one_lt_two_pow (by omega) : 1 < 2 ^ aw)]
        exact Nat.mod_eq_of_lt (by have := Nat.one_lt_two_pow (n := aw) (by omega); omega)
      exact hne this
    rw [← nextIndex_sub, he, BitVec.sub_self] at hs
    exact hs rfl
  · intro hc
    by_contra hne
    have := nextIndex_sub_toNat hne
    have hlt' := (nextIndex b.head - b.tail).isLt
    unfold Block.count at hc
    rw [this, hc] at hlt'
    unfold depth at hlt'
    have := Nat.two_pow_pos aw
    omega

end cursors

section operations
variable {aw : Nat}

/-- `tryEnqueue` stores and advances, or it drops. -/
theorem Block.tryEnqueue_cases (seenTail : BitVec aw) (v : Byte) (b : Block aw) :
    (nextIndex b.head ≠ seenTail ∧ b.tryEnqueue seenTail v =
      ({ b with slot := b.slot.write b.head.toNat v, head := nextIndex b.head }, true)) ∨
    (nextIndex b.head = seenTail ∧ b.tryEnqueue seenTail v = (b, false)) := by
  unfold Block.tryEnqueue
  by_cases h : nextIndex b.head = seenTail
  · exact .inr ⟨h, if_neg (not_not.2 h)⟩
  · exact .inl ⟨h, if_pos h⟩

/-- `tryDequeue` takes the item at `tail`, finds nothing, or meets a cell without a value. -/
theorem Block.tryDequeue_cases (seenHead : BitVec aw) (b : Block aw) :
    (seenHead ≠ b.tail ∧ ∃ v, b.slot.read b.tail.toNat = some v ∧
      b.tryDequeue seenHead = .ok ({ b with tail := nextIndex b.tail }, some v)) ∨
    (seenHead = b.tail ∧ b.tryDequeue seenHead = .ok (b, none)) ∨
    (seenHead ≠ b.tail ∧ b.slot.read b.tail.toNat = none ∧
      b.tryDequeue seenHead = .error (.unwrittenSlot b.tail.toNat)) := by
  unfold Block.tryDequeue
  by_cases h : seenHead = b.tail
  · exact .inr (.inl ⟨h, if_neg (not_not.2 h)⟩)
  · rw [if_pos h]
    cases hr : b.slot.read b.tail.toNat with
    | none => exact .inr (.inr ⟨h, rfl, rfl⟩)
    | some v => exact .inl ⟨h, v, rfl, rfl⟩

theorem Block.whenSubscribed_open {b : Block aw} (h : b.inUse = true) (r : Reply aw) : b.whenSubscribed r = r :=
  if_pos h

theorem Block.whenSubscribed_closed {b : Block aw} (h : b.inUse = false) (r : Reply aw) :
    b.whenSubscribed r = .ok (b, .p { ok := false, handled := false }) := by
  simp [Block.whenSubscribed, h]

theorem Block.whenOpen_open {b : Block aw} (h : b.inUse = true) (r : Reply aw) : b.whenOpen r = r :=
  if_pos h

theorem Block.whenOpen_closed {b : Block aw} (h : b.inUse = false) (r : Reply aw) :
    b.whenOpen r = .ok (b, .c (CResult.error .notOpen)) := by
  simp [Block.whenOpen, h]

/-- Everything an operation of port P can do, whatever it reads for `tail`: drop or ignore, or store one value under an
open test of space; it answers on port P. -/
theorem Block.performSeeing_p (T : Table) (seenTail seenHead : BitVec aw) (i : Instr) (b : Block aw)
    (hi : i.port = .p) :
    (∃ r, r.ok = false ∧ b.performSeeing T seenTail seenHead i = .ok (b, .p r)) ∨
    (∃ v h, testsSpace b.inUse i = true ∧ nextIndex b.head ≠ seenTail ∧
      b.performSeeing T seenTail seenHead i =
        .ok ({ b with slot := b.slot.write b.head.toNat v, head := nextIndex b.head }, .p ⟨true, h⟩)) := by
  cases i with
  | enq v =>
    rcases b.tryEnqueue_cases seenTail v with ⟨h, e⟩ | ⟨h, e⟩
    · exact .inr ⟨v, false, rfl, h, by simp only [Block.performSeeing, Block.enq, e]⟩
    · exact .inl ⟨⟨false, false⟩, rfl, by simp only [Block.performSeeing, Block.enq, e]⟩
  | evtPress k =>
    rcases Bool.eq_false_or_eq_true b.inUse with hu | hu
    · rcases b.tryEnqueue_cases seenTail (T (tableIndex (pressByte k))) with ⟨h, e⟩ | ⟨h, e⟩
      · exact .inr ⟨T (tableIndex (pressByte k)), true, hu, h, by
          simp only [Block.performSeeing, Block.evtPress, Block.whenSubscribed_open hu, e]⟩
      · exact .inl ⟨⟨false, true⟩, rfl, by
          simp only [Block.performSeeing, Block.evtPress, Block.whenSubscribed_open hu, e]⟩
    · exact .inl ⟨⟨false, false⟩, rfl, by
        simp only [Block.performSeeing, Block.evtPress, Block.whenSubscribed_closed hu]⟩
  | evtRelease k =>
    refine .inl ⟨⟨false, b.inUse⟩, rfl, ?_⟩
    rcases Bool.eq_false_or_eq_true b.inUse with hu | hu <;>
      simp [Block.performSeeing, Block.evtRelease, Block.whenSubscribed, hu]
  | lookup _ => cases hi
  | deq => cases hi
  | openSession _ => cases hi
  | read _ _ => cases hi
  | write _ => cases hi
  | close => cases hi

/-- Everything an operation of port C can do, whatever it reads for `head`: answer with no item taken, where at most
`in_use` changes; take the item at `tail` and deliver or lose it; or meet a cell without a value. -/
theorem Block.performSeeing_c (T : Table) (seenTail seenHead : BitVec aw) (i : Instr) (b : Block aw)
    (hi : i.port = .c) :
    (∃ u r, (u = b.inUse ∨ (i = .openSession true ∧ b.inUse = false ∧ u = true) ∨
        (i = .close ∧ b.inUse = true ∧ u = false)) ∧
      r.data = none ∧ r.status ≠ .copyFault ∧
      b.performSeeing T seenTail seenHead i = .ok ({ b with inUse := u }, .c r)) ∨
    (∃ v r, testsItems b.inUse i = true ∧ seenHead ≠ b.tail ∧ b.slot.read b.tail.toNat = some v ∧
      (r.data = some v ∧ r.status = .ok ∨ r.data = none ∧ r.status = .copyFault) ∧
      b.performSeeing T seenTail seenHead i = .ok ({ b with tail := nextIndex b.tail }, .c r)) ∨
    (testsItems b.inUse i = true ∧ seenHead ≠ b.tail ∧ b.slot.read b.tail.toNat = none ∧
      b.performSeeing T seenTail seenHead i = .error (.unwrittenSlot b.tail.toNat)) := by
  cases i with
  | deq =>
    rcases b.tryDequeue_cases seenHead with ⟨h, v, hr, e⟩ | ⟨h, e⟩ | ⟨h, hr, e⟩
    · exact .inr (.inl ⟨v, ⟨.ok, 0, some v⟩, rfl, h, hr, .inl ⟨rfl, rfl⟩, by
        simp only [Block.performSeeing, Block.deq, e]⟩)
    · exact .inl ⟨b.inUse, ⟨.ok, 0, none⟩, .inl rfl, rfl, by simp, by simp only [Block.performSeeing, Block.deq, e]⟩
    · exact .inr (.inr ⟨rfl, h, hr, by simp only [Block.performSeeing, Block.deq, e]⟩)
  | openSession k =>
    rcases Bool.eq_false_or_eq_true b.inUse with hu | hu
    · exact .inl ⟨b.inUse, CResult.error .busy, .inl rfl, rfl, by simp [CResult.error], by
        simp only [Block.performSeeing, Block.openSession, if_pos hu]⟩
    · cases k with
      | false =>
        exact .inl ⟨b.inUse, CResult.error .subscriptionFailed, .inl rfl, rfl, by simp [CResult.error], by
          simp only [Block.performSeeing, Block.openSession, if_neg (Bool.eq_false_iff.1 hu)]; rfl⟩
      | true =>
        exact .inl ⟨true, ⟨.ok, 0, none⟩, .inr (.inl ⟨rfl, hu, rfl⟩), rfl, by simp, by
          simp only [Block.performSeeing, Block.openSession, if_neg (Bool.eq_false_iff.1 hu)]; rfl⟩
  | read n k =>
    rcases Bool.eq_false_or_eq_true b.inUse with hu | hu
    · rcases b.tryDequeue_cases seenHead with ⟨h, v, hr, e⟩ | ⟨h, e⟩ | ⟨h, hr, e⟩
      · cases k with
        | true =>
          exact .inr (.inl ⟨v, ⟨.ok, n, some v⟩, hu, h, hr, .inl ⟨rfl, rfl⟩, by
            simp only [Block.performSeeing, Block.sessionRead, Block.whenOpen_open hu, e, if_true]⟩)
        | false =>
          exact .inr (.inl ⟨v, CResult.error .copyFault, hu, h, hr, .inr ⟨rfl, rfl⟩, by
            simp only [Block.performSeeing, Block.sessionRead, Block.whenOpen_open hu, e, Bool.false_eq_true,
              if_false]⟩)
      · exact .inl ⟨b.inUse, ⟨.ok, n, none⟩, .inl rfl, rfl, by simp, by
          simp only [Block.performSeeing, Block.sessionRead, Block.whenOpen_open hu, e]⟩
      · exact .inr (.inr ⟨hu, h, hr, by
          simp only [Block.performSeeing, Block.sessionRead, Block.whenOpen_open hu, e]⟩)
    · exact .inl ⟨b.inUse, CResult.error .notOpen, .inl rfl, rfl, by simp [CResult.error], by
        simp only [Block.performSeeing, Block.sessionRead, Block.whenOpen_closed hu]⟩
  | write n =>
    rcases Bool.eq_false_or_eq_true b.inUse with hu | hu
    · exact .inl ⟨b.inUse, ⟨.ok, n, none⟩, .inl rfl, rfl, by simp, by
        simp only [Block.performSeeing, Block.sessionWrite, Block.whenOpen_open hu]⟩
    · exact .inl ⟨b.inUse, CResult.error .notOpen, .inl rfl, rfl, by simp [CResult.error], by
        simp only [Block.performSeeing, Block.sessionWrite, Block.whenOpen_closed hu]⟩
  | close =>
    rcases Bool.eq_false_or_eq_true b.inUse with hu | hu
    · exact .inl ⟨false, ⟨.ok, 0, none⟩, .inr (.inr ⟨rfl, hu, rfl⟩), rfl, by simp, by
        simp only [Block.performSeeing, Block.close, Block.whenOpen_open hu]⟩
    · exact .inl ⟨b.inUse, CResult.error .notOpen, .inl rfl, rfl, by simp [CResult.error], by
        simp only [Block.performSeeing, Block.close, Block.whenOpen_closed hu]⟩
  | lookup _ => cases hi
  | evtPress _ => cases hi
  | evtRelease _ => cases hi
  | enq _ => cases hi

end operations

end Sys2Proof.Machine
end

