-- ==== Sys2Proof/Laws/Queue.lean ====
section
/-! SUPPORT. The abstract queue under the two ring-buffer primitives. -/

namespace Sys2Proof.Machine

section
variable {aw : Nat}

@[simp] theorem Memory.region_zero (m : Memory) (i : BitVec aw) : m.region i 0 = [] := rfl

theorem Memory.region_succ (m : Memory) (i : BitVec aw) (n : Nat) :
    m.region i (n + 1) = (m.read i.toNat).toList ++ m.region (nextIndex i) n := rfl

/-- A region is one cell longer at its end. -/
theorem Memory.region_snoc (m : Memory) (i : BitVec aw) (n : Nat) :
    m.region i (n + 1) = m.region i n ++ (m.read (i + BitVec.ofNat aw n).toNat).toList := by
  induction n generalizing i with
  | zero => simp [Memory.region_succ]
  | succ n ih => rw [Memory.region_succ, ih, Memory.region_succ, nextIndex_add, List.append_assoc]

/-- Two memories that read alike in a region have the same values there. -/
theorem Memory.region_congr {m m' : Memory} {i : BitVec aw} {n : Nat}
    (h : ∀ k < n, m.read (i + BitVec.ofNat aw k).toNat = m'.read (i + BitVec.ofNat aw k).toNat) :
    m.region i n = m'.region i n := by
  induction n with
  | zero => rfl
  | succ n ih => rw [Memory.region_snoc, Memory.region_snoc, ih fun k hk => h k (by omega), h n (by omega)]

/-- A region whose cells all hold a value has as many values as cells. -/
theorem Memory.region_length {m : Memory} {i : BitVec aw} {n : Nat}
    (h : ∀ k < n, (m.read (i + BitVec.ofNat aw k).toNat).isSome) : (m.region i n).length = n := by
  induction n with
  | zero => rfl
  | succ n ih =>
    obtain ⟨v, hv⟩ := Option.isSome_iff_exists.1 (h n (by omega))
    rw [Memory.region_snoc, hv, List.length_append, ih fun k hk => h k (by omega)]
    rfl

theorem Block.Inv.queue_length {b : Block aw} (h : b.Inv) : b.queue.length = b.count :=
  Memory.region_length h.written

theorem Block.count_eq_zero_iff (b : Block aw) : b.count = 0 ↔ b.head = b.tail := by
  rw [← sub_eq_zero_iff b.head b.tail]
  exact ⟨fun h => BitVec.eq_of_toNat_eq (h.trans (by simp)), fun h => by simp [Block.count, h]⟩

/-- The block after a successful enqueue. -/
abbrev Block.stored (b : Block aw) (v : Byte) : Block aw :=
  { b with slot := b.slot.write b.head.toNat v, head := nextIndex b.head }

/-- The block after a successful dequeue. -/
abbrev Block.taken (b : Block aw) : Block aw := { b with tail := nextIndex b.tail }

theorem Block.count_stored {b : Block aw} {v : Byte} (h : nextIndex b.head ≠ b.tail) :
    (b.stored v).count = b.count + 1 := nextIndex_sub_toNat h

theorem Block.count_taken {b : Block aw} (h : b.head ≠ b.tail) : b.taken.count + 1 = b.count :=
  sub_nextIndex_toNat h

/-- The cells of the valid region are not the cell at `head`. -/
theorem Block.region_ne_head {b : Block aw} {k : Nat} (h : k < b.count) :
    (b.tail + BitVec.ofNat aw k).toNat ≠ b.head.toNat :=
  fun he => add_ofNat_ne h (BitVec.eq_of_toNat_eq he)

/-- A successful enqueue adds its value at the back of the queue. -/
theorem Block.queue_stored {b : Block aw} {v : Byte} (h : nextIndex b.head ≠ b.tail) :
    (b.stored v).queue = b.queue ++ [v] := by
  show Memory.region (b.slot.write b.head.toNat v) b.tail (b.stored v).count = _
  rw [Block.count_stored h, Memory.region_snoc]
  congr 1
  · exact Memory.region_congr fun k hk => Memory.read_write_other _ _ (Block.region_ne_head hk)
  · have : b.tail + BitVec.ofNat aw b.count = b.head := add_toNat_sub b.head b.tail
    rw [this, Memory.read_write_same]
    rfl

/-- A successful dequeue removes the first value of the queue. -/
theorem Block.queue_taken {b : Block aw} {v : Byte} (h : b.head ≠ b.tail) (hv : b.slot.read b.tail.toNat = some v) :
    b.queue = v :: b.taken.queue := by
  show Memory.region b.slot b.tail b.count = _
  rw [← Block.count_taken h, Memory.region_succ, hv]
  rfl

/-- The first cell of the valid region holds a value. -/
theorem Block.Inv.read_tail {b : Block aw} (h : b.Inv) (hne : b.head ≠ b.tail) :
    ∃ v, b.slot.read b.tail.toNat = some v := by
  have hc : 0 < b.count := Nat.pos_of_ne_zero fun h0 => hne ((Block.count_eq_zero_iff b).1 h0)
  have := h.written 0 hc
  simp only [BitVec.add_zero] at this
  exact Option.isSome_iff_exists.1 this

theorem Block.Inv.stored {b : Block aw} (h : b.Inv) (v : Byte) (hs : nextIndex b.head ≠ b.tail) :
    (b.stored v).Inv where
  canonical := Memory.write_wf h.canonical _ _
  inRange := Memory.write_inRange h.inRange b.head.isLt
  written := fun k hk => by
    rw [Block.count_stored hs] at hk
    rcases Nat.lt_succ_iff_lt_or_eq.1 hk with hk | rfl
    · show (Memory.read (b.slot.write _ v) _).isSome
      rw [Memory.read_write_other _ _ (Block.region_ne_head hk)]
      exact h.written k hk
    · show (Memory.read (b.slot.write _ v) _).isSome
      rw [show b.tail + BitVec.ofNat aw b.count = b.head from add_toNat_sub b.head b.tail, Memory.read_write_same]
      rfl

theorem Block.Inv.taken {b : Block aw} (h : b.Inv) (hne : b.head ≠ b.tail) : b.taken.Inv where
  canonical := h.canonical
  inRange := h.inRange
  written := fun k hk => by
    have := Block.count_taken hne
    have := h.written (k + 1) (by omega)
    rwa [← nextIndex_add] at this

theorem Block.Inv.setInUse {b : Block aw} (h : b.Inv) (u : Bool) : Block.Inv { b with inUse := u } :=
  ⟨h.canonical, h.inRange, h.written⟩

end

end Sys2Proof.Machine
end

