-- ==== Sys2Proof/Laws/State.lean ====
section
/-! SUPPORT. One lemma per field per named update of the state, so that no later proof unfolds a record update. -/

namespace Sys2Proof.Machine

@[simp] theorem State.reset_toBlock : State.reset.toBlock = Block.reset Config.AW := rfl
@[simp] theorem State.reset_script : State.reset.script = [] := rfl
@[simp] theorem State.reset_out : State.reset.out = StepOut.quiet := rfl

@[simp] theorem Block.reset_head (aw : Nat) : (Block.reset aw).head = 0 := rfl
@[simp] theorem Block.reset_tail (aw : Nat) : (Block.reset aw).tail = 0 := rfl
@[simp] theorem Block.reset_slot (aw : Nat) : (Block.reset aw).slot = [] := rfl
@[simp] theorem Block.reset_inUse (aw : Nat) : (Block.reset aw).inUse = false := rfl

@[simp] theorem State.beginStep_toBlock (s : State) (rest : List StepInput) :
    (s.beginStep rest).toBlock = s.toBlock := rfl
@[simp] theorem State.beginStep_script (s : State) (rest : List StepInput) : (s.beginStep rest).script = rest := rfl
@[simp] theorem State.beginStep_out (s : State) (rest : List StepInput) :
    (s.beginStep rest).out = StepOut.quiet := rfl

@[simp] theorem State.presentNext_toBlock (s : State) (l : StepInput) : (s.presentNext l).toBlock = s.toBlock := rfl
@[simp] theorem State.presentNext_script (s : State) (l : StepInput) :
    (s.presentNext l).script = l :: s.script := rfl
@[simp] theorem State.presentNext_out (s : State) (l : StepInput) : (s.presentNext l).out = s.out := rfl

@[simp] theorem StepOut.put_t (o : StepOut) (x : Byte) : o.put (.t x) = { o with t := o.t ++ [x] } := rfl
@[simp] theorem StepOut.put_p (o : StepOut) (r : PResult) : o.put (.p r) = { o with p := some r } := rfl
@[simp] theorem StepOut.put_c (o : StepOut) (r : CResult) : o.put (.c r) = { o with c := some r } := rfl
@[simp] theorem StepOut.quiet_t : StepOut.quiet.t = [] := rfl
@[simp] theorem StepOut.quiet_p : StepOut.quiet.p = none := rfl
@[simp] theorem StepOut.quiet_c : StepOut.quiet.c = none := rfl

@[simp] theorem Block.merge_head {aw : Nat} (p c : Block aw) : (Block.merge p c).head = p.head := rfl
@[simp] theorem Block.merge_slot {aw : Nat} (p c : Block aw) : (Block.merge p c).slot = p.slot := rfl
@[simp] theorem Block.merge_tail {aw : Nat} (p c : Block aw) : (Block.merge p c).tail = c.tail := rfl
@[simp] theorem Block.merge_inUse {aw : Nat} (p c : Block aw) : (Block.merge p c).inUse = c.inUse := rfl
@[simp] theorem Block.merge_self {aw : Nat} (b : Block aw) : Block.merge b b = b := rfl

@[simp] theorem State.answer_ok (s : State) (b : Block Config.AW) (a : Answer) :
    s.answer (.ok (b, a)) = .next { s with toBlock := b, out := s.out.put a } := rfl
@[simp] theorem State.answer_error (s : State) (f : Fault) : s.answer (.error f) = .fault f := rfl

@[simp] theorem lengthFits_zero (lenw : Nat) : lengthFits lenw 0 = true := by simp [lengthFits]

@[simp] theorem StepInput.mapLen_t (f : Len → Len) (inp : StepInput) : (inp.mapLen f).t = inp.t := rfl
@[simp] theorem StepInput.mapLen_p (f : Len → Len) (inp : StepInput) : (inp.mapLen f).p = inp.p := rfl
@[simp] theorem StepInput.mapLen_c (f : Len → Len) (inp : StepInput) :
    (inp.mapLen f).c = inp.c.map fun pins => { pins with len := f pins.len } := rfl
@[simp] theorem StepOut.mapRet_t (f : Len → Len) (o : StepOut) : (o.mapRet f).t = o.t := rfl
@[simp] theorem StepOut.mapRet_p (f : Len → Len) (o : StepOut) : (o.mapRet f).p = o.p := rfl
@[simp] theorem StepOut.mapRet_c (f : Len → Len) (o : StepOut) :
    (o.mapRet f).c = o.c.map fun r => { r with ret := f r.ret } := rfl
@[simp] theorem StepOut.quiet_mapRet (f : Len → Len) : StepOut.quiet.mapRet f = StepOut.quiet := rfl
@[simp] theorem StepOut.quiet_fits (lenw : Nat) : StepOut.quiet.fits lenw = true := rfl

/-- A reply gives a next state only by being one, and then this one. -/
theorem State.answer_eq_next {s t : State} {r : Reply Config.AW} (h : s.answer r = .next t) :
    ∃ b a, r = .ok (b, a) ∧ t = { s with toBlock := b, out := s.out.put a } := by
  cases r with
  | error f => simp at h
  | ok x =>
    obtain ⟨b, a⟩ := x
    refine ⟨b, a, rfl, ?_⟩
    simpa [eq_comm] using h

@[simp] theorem andThen_next {α β : Type} (a : α) (k : α → Host.Outcome β Fault Refusal) :
    andThen (.next a) k = k a := rfl
@[simp] theorem andThen_fault {α β : Type} (f : Fault) (k : α → Host.Outcome β Fault Refusal) :
    andThen (.fault f) k = .fault f := rfl
@[simp] theorem andThen_refused {α β : Type} (r : Refusal) (k : α → Host.Outcome β Fault Refusal) :
    andThen (.refused r) k = .refused r := rfl

end Sys2Proof.Machine
end

