-- ==== Sys2Proof/Laws/Step.lean ====
section
/-! SUPPORT. The machine's operations as those of the block, and which port a decoded word belongs to. -/

namespace Sys2Proof.Machine

/-- Every operation of the machine is that of its block, with the reply shown on its port. -/
theorem exec_eq_perform (i : Instr) (s : State) : exec i s = s.answer (s.toBlock.perform Config.table i) := by
  cases i <;> rfl

theorem decodeP_port (w : BitVec 9) : (decodeP w).port = .p := by
  unfold decodeP
  split
  · rfl
  · split <;> rfl

theorem decodeT_port (idx : TIndex) : (decodeT idx).port = .t := rfl

/-- The operation decoded from a word of port C, code by code. -/
theorem decodeC_cases (pins : CPins) :
    (decodeC pins = .ok .deq ∧ pins.cmd.toNat = 0) ∨
    (decodeC pins = .ok (.openSession pins.subOk) ∧ pins.cmd.toNat = 1) ∨
    (decodeC pins = .ok (.read pins.len pins.copyOk) ∧ pins.cmd.toNat = 2) ∨
    (decodeC pins = .ok (.write pins.len) ∧ pins.cmd.toNat = 3) ∨
    (decodeC pins = .ok .close ∧ pins.cmd.toNat = 4) ∨
    (decodeC pins = .error (.reservedPortC pins.cmd) ∧ 5 ≤ pins.cmd.toNat) := by
  have hlt := pins.cmd.isLt
  unfold decodeC
  generalize pins.cmd.toNat = n at hlt
  match n, hlt with
  | 0, _ => exact .inl ⟨rfl, rfl⟩
  | 1, _ => exact .inr (.inl ⟨rfl, rfl⟩)
  | 2, _ => exact .inr (.inr (.inl ⟨rfl, rfl⟩))
  | 3, _ => exact .inr (.inr (.inr (.inl ⟨rfl, rfl⟩)))
  | 4, _ => exact .inr (.inr (.inr (.inr (.inl ⟨rfl, rfl⟩))))
  | n + 5, _ => exact .inr (.inr (.inr (.inr (.inr ⟨rfl, by omega⟩))))

theorem decodeC_port {pins : CPins} {i : Instr} (h : decodeC pins = .ok i) : i.port = .c := by
  rcases decodeC_cases pins with ⟨e, _⟩ | ⟨e, _⟩ | ⟨e, _⟩ | ⟨e, _⟩ | ⟨e, _⟩ | ⟨e, _⟩ <;>
    rw [e] at h <;> cases h <;> rfl

/-- Port T gives a next state whatever it is presented: one answer for each index, nothing else. -/
theorem presentT_eq (idxs : List TIndex) (s : State) :
    presentT idxs s = .next { s with out := { s.out with t := s.out.t ++ idxs.map Config.table } } := by
  induction idxs generalizing s with
  | nil => simp [presentT]
  | cons i is ih =>
    have : exec (decodeT i) s = .next { s with out := { s.out with t := s.out.t ++ [Config.table i] } } := rfl
    simp [presentT, this, ih]

end Sys2Proof.Machine
end

