-- ==== Sys2Proof/Tests/Slice0.lean ====
section
/-! SUPPORT. Tests of single steps against the vectors of 95_test_vectors.md (named V-... below), words written out from
30_encoding.md, the refusals of the checks, and one witness for each statement that has hypotheses. -/

namespace Sys2Proof.Tests

open Sys2Proof Sys2Proof.Machine

/-- `TABLE_T` of 95_test_vectors.md section 2; no reference data. -/
def tableT : Table := fun i => BitVec.ofNat 8 (3 * i.toNat + 1)

/-- A block of the test depth `C = 8`. -/
def block8 (head tail : BitVec 3) (slot : Memory) (inUse : Bool) : Block 3 :=
  { head := head, tail := tail, slot := slot, inUse := inUse }

/-- The machine with the given block, nothing presented, nothing answered. -/
def machine (head tail : BitVec 12) (slot : Memory) (inUse : Bool) : State :=
  { head := head, tail := tail, slot := slot, inUse := inUse, script := [], out := StepOut.quiet }

/-- The machine with one line to run. -/
def machineWith (s : State) (line : StepInput) : State := { s with script := [line] }

/-! ### Well-formedness: what the checks refuse -/

theorem test_depth_of_no_item_is_refused : legalWidth 0 = false ∧ legalDepth 1 = false ∧ legalDepth 0 = false := by
  decide

theorem test_depth_not_power_of_two_is_refused :
    legalDepth 6 = false ∧ legalDepth 8 = true ∧ legalDepth 4096 = true ∧ legalWidth Config.AW = true := by decide

/-- A length one above the widest is refused in `READ` and in `WRITE`, at a width of 8 and at a width of 40 bits. -/
theorem test_length_wider_than_the_build_is_refused :
    (Instr.read 256 true).wellFormed 8 = false ∧ (Instr.write (2 ^ 40)).wellFormed 40 = false ∧
    (Instr.read 255 true).wellFormed 8 = true ∧ (Instr.write (2 ^ 40 - 1)).wellFormed 40 = true := by decide

/-! ### Decoding: words written out from R52, R54, R57 and R60 -/

theorem test_decode_lookup : decode (.t 0b110000000) = .ok (.lookup 0x180) := rfl
theorem test_decode_evtPress : decode (.p 0b001010101) = .ok (.evtPress 0x55) := rfl
theorem test_decode_evtRelease : decode (.p 0b011111111) = .ok (.evtRelease 0x7F) := rfl
theorem test_decode_enq : decode (.p 0b110101010) = .ok (.enq 0xAA) := rfl
theorem test_decode_deq : decodeTableWord 8 0b000 = some .deq := rfl
theorem test_decode_openSession :
    decode (.c ⟨0b001, 7, true, false⟩) = .ok (.openSession true) ∧ decodeTableWord 3 0b001 = some (.openSession false) :=
  ⟨rfl, rfl⟩
theorem test_decode_read : decode (.c ⟨0b010, 100, false, true⟩) = .ok (.read 100 true) := rfl
theorem test_decode_write : decode (.c ⟨0b011, 5, true, true⟩) = .ok (.write 5) := rfl
theorem test_decode_close : decodeTableWord 8 0b100 = some .close := rfl

theorem test_reserved_codes_are_rejected_by_name :
    decode (.c ⟨0b101, 0, false, false⟩) = .error (.reservedPortC 0b101) ∧
    decode (.c ⟨0b110, 0, true, true⟩) = .error (.reservedPortC 0b110) ∧
    decode (.c ⟨0b111, 0, false, false⟩) = .error (.reservedPortC 0b111) := ⟨rfl, rfl, rfl⟩

theorem test_bits_above_the_word_are_rejected_by_name :
    wordOfTable 8 0b1000 = .error (.notACommandWord 8 8) ∧
    wordOfTable 16 0x200 = .error (.notACommandWord 16 0x200) ∧
    wordOfTable 24 0 = .error (.notACommandWord 24 0) := ⟨rfl, rfl, rfl⟩

/-- V-IDX-4, V-IDX-5, V-IDX-7. -/
theorem test_index_of_release_bytes :
    tableIndex 0x80 = 0x100 ∧ tableIndex 0x9E = 0x11E ∧ tableIndex 0xFF = 0x17F := by decide

/-! ### One operation at a time -/

/-- V-LKP-3: an index no byte reaches. -/
theorem test_lookup : (block8 0 0 [] false).perform tableT (.lookup 0x080) = .ok (block8 0 0 [] false, .t 0x81) := rfl

/-- V-LKP-2: a zero entry. -/
theorem test_lookup_zero : (block8 0 0 [] true).perform tableT (.lookup 0x055) = .ok (block8 0 0 [] true, .t 0) := rfl

/-- V-ENQ-2: `head` wraps from 4095. -/
theorem test_enq_wraps :
    exec (.enq 0x41) (machine 4095 17 [] false) =
      .next { machine 0 17 [(4095, 0x41)] false with out := { t := [], p := some ⟨true, false⟩, c := none } } := rfl

/-- V-ENQ-4: full with `head < tail`. -/
theorem test_enq_full :
    exec (.enq 0x41) (machine 0 1 [] false) =
      .next { machine 0 1 [] false with out := { t := [], p := some ⟨false, false⟩, c := none } } := rfl

/-- V-DEQ-3: `tail` wraps from 4095; the cell keeps its value. -/
theorem test_deq_wraps :
    exec .deq (machine 5 4095 [(4095, 0x5B)] false) =
      .next { machine 5 0 [(4095, 0x5B)] false with out := { t := [], p := none, c := some ⟨.ok, 0, some 0x5B⟩ } } := rfl

/-- V-DEQ-2: empty at a position other than 0. -/
theorem test_deq_empty :
    exec .deq (machine 2000 2000 [] false) =
      .next { machine 2000 2000 [] false with out := { t := [], p := none, c := some ⟨.ok, 0, none⟩ } } := rfl

/-- V-EVT-10: key 0 is translated by `TABLE[0]`; `head` wraps from 7. -/
theorem test_evtPress_wraps :
    (block8 7 3 [] true).perform tableT (.evtPress 0) = .ok (block8 0 3 [(7, 0x01)] true, .p ⟨true, true⟩) := rfl

/-- V-EVT-7: a press on a full buffer is dropped and handled. -/
theorem test_evtPress_full :
    (block8 7 0 [] true).perform tableT (.evtPress 0x30) = .ok (block8 7 0 [] true, .p ⟨false, true⟩) := rfl

/-- V-EVT-3. -/
theorem test_evtRelease :
    (block8 3 0 [] true).perform tableT (.evtRelease 0x1E) = .ok (block8 3 0 [] true, .p ⟨false, true⟩) := rfl

/-- V-EVT-9: while closed not even handled. -/
theorem test_evtRelease_closed :
    (block8 3 1 [] false).perform tableT (.evtRelease 0x1E) = .ok (block8 3 1 [] false, .p ⟨false, false⟩) := rfl

/-- V-SES-5: leftovers kept. -/
theorem test_openSession :
    (block8 7 2 [(2, 9)] false).perform tableT (.openSession true) =
      .ok (block8 7 2 [(2, 9)] true, .c ⟨.ok, 0, none⟩) := rfl

/-- V-SES-4: `BUSY` is tested before `c_sub_ok`. -/
theorem test_openSession_busy :
    (block8 5 2 [] true).perform tableT (.openSession false) = .ok (block8 5 2 [] true, .c ⟨.busy, 0, none⟩) := rfl

/-- V-SES-9: the item is lost. -/
theorem test_read_copyFault :
    (block8 3 0 [(0, 0x5B), (1, 0x91)] true).perform tableT (.read 2 false) =
      .ok (block8 3 1 [(0, 0x5B), (1, 0x91)] true, .c ⟨.copyFault, 0, none⟩) := rfl

/-- V-SES-8: an empty read attempts no copy and reports the length. -/
theorem test_read_empty :
    (block8 3 3 [] true).perform tableT (.read 100 false) = .ok (block8 3 3 [] true, .c ⟨.ok, 100, none⟩) := rfl

/-- V-SES-13, and R106 at a length of more than 32 bits, which is reported whole. -/
theorem test_write :
    (block8 3 0 [] true).perform tableT (.write 5) = .ok (block8 3 0 [] true, .c ⟨.ok, 5, none⟩) ∧
    (block8 3 0 [] true).perform tableT (.write (2 ^ 40 + 5)) = .ok (block8 3 0 [] true, .c ⟨.ok, 2 ^ 40 + 5, none⟩) :=
  ⟨rfl, rfl⟩

/-- V-SES-17: `c_ret` is 0, not 5. -/
theorem test_write_closed :
    (block8 3 0 [] false).perform tableT (.write 5) = .ok (block8 3 0 [] false, .c ⟨.notOpen, 0, none⟩) := rfl

/-- V-SES-15: the buffer is kept. -/
theorem test_close :
    (block8 1 4 [(4, 7)] true).perform tableT .close = .ok (block8 1 4 [(4, 7)] false, .c ⟨.ok, 0, none⟩) := rfl

/-- V-SES-18. -/
theorem test_close_closed :
    (block8 3 0 [] false).perform tableT .close = .ok (block8 3 0 [] false, .c ⟨.notOpen, 0, none⟩) := rfl

/-! ### Whole steps -/

/-- V-PAR-1: a read in the step of a press into an empty buffer finds it empty. -/
theorem test_step_press_and_read_on_empty :
    (block8 0 0 [] true).step tableT (Line.both (Line.evt 0x1E) (Line.op (.read 1 true))) =
      .ok (block8 1 0 [(0, 0x5B)] true, { t := [], p := some ⟨true, true⟩, c := some ⟨.ok, 1, none⟩ }) := rfl

/-- V-PAR-2: a press in the step that frees a slot of a full buffer is dropped. -/
theorem test_step_press_and_read_on_full :
    (block8 7 0 [(0, 0x5B)] true).step tableT (Line.both (Line.evt 0x30) (Line.op (.read 1 true))) =
      .ok (block8 7 1 [(0, 0x5B)] true, { t := [], p := some ⟨false, true⟩, c := some ⟨.ok, 1, some 0x5B⟩ }) := rfl

/-- V-PAR-4: an event in the step of a successful `OPEN` sees the closed session. -/
theorem test_step_press_and_open :
    (block8 0 0 [] false).step tableT (Line.both (Line.evt 0x1E) Line.shortOpen) =
      .ok (block8 0 0 [] true, { t := [], p := some ⟨false, false⟩, c := some ⟨.ok, 0, none⟩ }) := rfl

/-- V-PAR-5: an event in the step of `CLOSE` sees the open session. -/
theorem test_step_press_and_close :
    (block8 0 0 [] true).step tableT (Line.both (Line.evt 0x1E) (Line.op .close)) =
      .ok (block8 1 0 [(0, 0x5B)] false, { t := [], p := some ⟨true, true⟩, c := some ⟨.ok, 0, none⟩ }) := rfl

/-- V-SES-20: a reserved code is decoded before `in_use` is tested. -/
theorem test_step_reserved :
    (block8 3 0 [] false).step tableT (Line.reserved 0b111) =
      .ok (block8 3 0 [] false, { t := [], p := none, c := some ⟨.illegalCmd, 0, none⟩ }) := rfl

/-- Log entry 21 (the model's own choice): the enqueue runs beside a reserved code. -/
theorem test_step_enq_and_reserved :
    (block8 7 3 [] false).step tableT (Line.both (Line.op (.enq 0x41)) (Line.reserved 0b101)) =
      .ok (block8 0 3 [(7, 0x41)] false, { t := [], p := some ⟨true, false⟩, c := some ⟨.illegalCmd, 0, none⟩ }) := rfl

/-- V-ENQ-1 through the machine's step, from reset, with the table word placed: R35 and R8 around it. -/
theorem test_step_runs_placed_word :
    step (State.reset.withFetchWord 16 0x141) =
      .next { machine 1 0 [(0, 0x41)] false with out := { t := [], p := some ⟨true, false⟩, c := none } } := rfl

/-- R39: a copy of `tail` that lags by the whole of what port C freed makes a spurious drop, and one that has caught up
does not; the exact block would store. -/
theorem test_stale_spurious_drop :
    (StaleBlock.step tableT 0 0 (Line.op (.enq 0x41)) { toBlock := block8 7 1 [] false, tailSeen := 0, headSeen := 7 }).toOption.map
      (fun r => (r.1.head, r.2.p)) = some (7, some ⟨false, false⟩) ∧
    (StaleBlock.step tableT 1 0 (Line.op (.enq 0x41)) { toBlock := block8 7 1 [] false, tailSeen := 0, headSeen := 7 }).toOption.map
      (fun r => (r.1.head, r.2.p)) = some (0, some ⟨true, false⟩) := ⟨rfl, rfl⟩

/-! ### Witnesses: states and operands that meet the hypotheses of each statement, clause by clause -/

theorem witness_CommandWordsHaveOneMeaning : decodeC ⟨0b010, 3, false, true⟩ = .ok (.read 3 true) := rfl

theorem witness_OnlyPortCCodesFiveToSevenAreReserved :
    (⟨4, 0, false, false⟩ : CPins).cmd.toNat < 5 ∧ 5 ≤ (⟨5, 0, false, false⟩ : CPins).cmd.toNat := by decide

theorem witness_DecodedWordStandsUnderExactlyItsRow :
    decode (.p 0x0FF) = .ok (.evtRelease 0x7F) ∧ decode (.p 0x100) = .ok (.enq 0) ∧ decode (.t 0x1FF) = .ok (.lookup 0x1FF) ∧
    decode (.c ⟨4, 0, false, false⟩) = .ok .close := ⟨rfl, rfl, rfl, rfl⟩

theorem witness_DecodingKeepsWellFormedness :
    (PortWord.c ⟨2, 255, false, true⟩).fits 8 = true ∧ decode (.c ⟨2, 255, false, true⟩) = .ok (.read 255 true) := ⟨by decide, rfl⟩

theorem witness_StepKeepsLengthsInTheirWidth :
    (machineWith (machine 3 3 [] true) (Line.op (.read 255 true))).fits 8 = true ∧
    ∃ t, step (machineWith (machine 3 3 [] true) (Line.op (.read 255 true))) = .next t ∧ t.out.c = some ⟨.ok, 255, none⟩ :=
  ⟨by decide, _, rfl, rfl⟩

theorem witness_LengthsAreCopiedAndDecideNothing : (fun n : Len => n % 2 ^ 8) 0 = 0 := rfl

theorem witness_TableIndexMovesReleaseFlagToBitEight : rel 0x7F = false ∧ rel 0x80 = true := by decide

theorem witness_EnqStoresUnlessFull :
    (nextIndex (machine 4095 1 [] false).head ≠ (machine 4095 1 [] false).tail) ∧
    (nextIndex (machine 4095 0 [] false).head = (machine 4095 0 [] false).tail) := by decide

theorem witness_DeqTakesOldestUnlessEmpty :
    ((machine 0 4095 [(4095, 7)] false).head ≠ (machine 0 4095 [(4095, 7)] false).tail ∧
      (machine 0 4095 [(4095, 7)] false).slot.read (machine 0 4095 [(4095, 7)] false).tail.toNat = some 7) ∧
    (machine 4095 4095 [] false).head = (machine 4095 4095 [] false).tail := by decide

theorem witness_PressEnqueuesItsKeyCode :
    ((machine 4095 1 [] true).inUse = true ∧ nextIndex (machine 4095 1 [] true).head ≠ (machine 4095 1 [] true).tail) ∧
    ((machine 0 1 [] true).inUse = true ∧ nextIndex (machine 0 1 [] true).head = (machine 0 1 [] true).tail) := by decide

theorem witness_ReleaseIsFilteredAndHandled : (machine 0 1 [] true).inUse = true := rfl

theorem witness_EventsWhileClosedAreIgnored : State.reset.inUse = false := rfl

theorem witness_OpenTestsInUseThenSubscription :
    (machine 0 1 [] true).inUse = true ∧ (State.reset.inUse = false ∧ false = false) ∧
    (State.reset.inUse = false ∧ true = true) := by decide

theorem witness_ReadTakesOneItemThenCopies :
    (machine 0 4095 [(4095, 0)] true).inUse = true ∧ (machine 0 4095 [(4095, 0)] true).head ≠ (machine 0 4095 [(4095, 0)] true).tail ∧
    (machine 0 4095 [(4095, 0)] true).slot.read (machine 0 4095 [(4095, 0)] true).tail.toNat = some 0 := by decide

theorem witness_EmptyReadReportsRequestedLength :
    (machine 3 3 [] true).inUse = true ∧ (machine 3 3 [] true).head = (machine 3 3 [] true).tail := by decide

/-- Two items round the wrap: the one that is lost and the one after it, with the state `t` of the statement between. -/
theorem witness_CopyFaultLosesTheItem :
    let s := machine 1 4095 [(0, 0x91), (4095, 0x5B)] true
    s.inUse = true ∧ s.head ≠ s.tail ∧ s.slot.read s.tail.toNat = some 0x5B ∧
    s.head ≠ nextIndex s.tail ∧ s.slot.read (nextIndex s.tail).toNat = some 0x91 ∧
    (machine 3 3 [] true).inUse = true ∧ (machine 3 3 [] true).head = (machine 3 3 [] true).tail := by decide

theorem witness_CopyFaultLosesTheItem_on_empty :
    exec (.read 2 false) (machine 3 3 [] true) =
      .next { machine 3 3 [] true with out := { t := [], p := none, c := some ⟨.ok, 2, none⟩ } } := rfl

theorem witness_WriteReportsLengthOnly : (machine 0 1 [] true).inUse = true := rfl

theorem witness_CloseClearsInUseOnly : (machine 1 4 [] true).inUse = true := rfl

theorem witness_ClosedSessionCallsAnswerNotOpen : State.reset.inUse = false := rfl

theorem witness_SecondOpenIsBusyAndDisturbsNothing : (machine 5 2 [] true).inUse = true := rfl

theorem witness_DequeueOfUnwrittenCellFaults :
    let s := machine 0 4095 [] true
    s.head ≠ s.tail ∧ s.slot.read s.tail.toNat = none ∧ s.inUse = true := by decide

theorem witness_PressAndLookupTranslateAlike :
    (machine 4095 1 [] true).inUse = true ∧ nextIndex (machine 4095 1 [] true).head ≠ (machine 4095 1 [] true).tail := by decide

theorem witness_PressedKeyCodeIsDeliveredEvenIfZero :
    (machine 4095 4095 [] true).inUse = true ∧ (machine 4095 4095 [] true).head = (machine 4095 4095 [] true).tail := by decide

theorem witness_EventInOpenSessionIsAlwaysHandled :
    (machine 0 1 [] true).inUse = true ∧ (Instr.evtPress 5 = .evtPress 5 ∨ Instr.evtPress 5 = .evtRelease 5) ∧
    (Instr.evtRelease 5 = .evtPress 5 ∨ Instr.evtRelease 5 = .evtRelease 5) := by decide

theorem witness_DerivedPredicatesAgree :
    legalWidth 1 = true ∧ legalWidth 12 = true ∧ (block8 2 2 [] false).empty = true ∧ (block8 0 1 [] false).full = true := by decide

theorem witness_CursorArithmeticIsModuloDepth :
    legalWidth 3 = true ∧ (7 : BitVec 3).toNat = depth 3 - 1 ∧
    (block8 7 7 [] false).tail.toNat ≤ (block8 7 7 [] false).head.toNat ∧
    (block8 0 7 [] false).head.toNat < (block8 0 7 [] false).tail.toNat ∧
    (block8 7 7 [] false).head = (block8 7 7 [] false).tail ∧
    nextIndex (block8 7 0 [] false).head = (block8 7 0 [] false).tail := by decide

theorem witness_CanonicalSlotsAreEqualIfTheyReadAlike :
    Memory.wf [(0, 5), (4095, 0)] ∧ (∀ a, Memory.read [(0, 5), (4095, 0)] a = Memory.read [(0, 5), (4095, 0)] a) :=
  ⟨by decide, fun _ => rfl⟩

theorem witness_EachPortWritesOnlyWhatItOwns :
    ((Instr.enq 1).port = .p ∧ ∃ t, exec (.enq 1) State.reset = .next t) ∧
    (Instr.deq.port = .c ∧ ∃ t, exec .deq State.reset = .next t) ∧
    ((Instr.lookup 1).port = .t ∧ ∃ t, exec (.lookup 1) State.reset = .next t) :=
  ⟨⟨rfl, _, rfl⟩, ⟨rfl, _, rfl⟩, ⟨rfl, _, rfl⟩⟩

/-- Both forms, storing and (on a full buffer) not storing, at the last cell. -/
theorem witness_StoringOperationsFrame :
    (∃ t, exec (.enq 1) (machine 4095 1 [] false) = .next t ∧ t.out.p = some ⟨true, false⟩) ∧
    (∃ t, exec (.evtPress 1) (machine 4095 0 [] true) = .next t ∧ t.out.p = some ⟨false, true⟩) :=
  ⟨⟨_, rfl, rfl⟩, ⟨_, rfl, rfl⟩⟩

/-- One for each clause whose premise is a change: `tail` moves, `in_use` rises, `in_use` falls. -/
theorem witness_NonStoringOperationsFrame :
    (∃ t, exec (.read 1 true) (machine 0 4095 [(4095, 7)] true) = .next t ∧ t.tail ≠ 4095 ∧
      (∀ v, Instr.read 1 true ≠ .enq v) ∧ (∀ k, Instr.read 1 true ≠ .evtPress k)) ∧
    (∃ t, exec (.openSession true) State.reset = .next t ∧ t.inUse ≠ false) ∧
    (∃ t, exec .close (machine 0 0 [] true) = .next t ∧ t.inUse ≠ true) :=
  ⟨⟨_, rfl, by decide, nofun, nofun⟩, ⟨_, rfl, by decide⟩, ⟨_, rfl, by decide⟩⟩

theorem witness_SessionBitChangesOnlyAtOpenAndClose :
    (∃ t, exec (.openSession true) State.reset = .next t) ∧ (∃ t, exec .close (machine 0 0 [] true) = .next t) ∧
    (∃ t, exec (.evtPress 0) State.reset = .next t) := ⟨⟨_, rfl⟩, ⟨_, rfl⟩, ⟨_, rfl⟩⟩

/-- A state and an operation for each status the statement names. -/
theorem witness_EachStatusHasExactlyItsCondition :
    (∃ t, exec (.openSession false) (machine 0 0 [] true) = .next t ∧ t.out.c.map (·.status) = some .busy) ∧
    (∃ t, exec (.openSession false) State.reset = .next t ∧ t.out.c.map (·.status) = some .subscriptionFailed) ∧
    (∃ t, exec (.read 1 false) (machine 1 0 [(0, 7)] true) = .next t ∧ t.out.c.map (·.status) = some .copyFault) ∧
    (∃ t, exec .close State.reset = .next t ∧ t.out.c.map (·.status) = some .notOpen) ∧
    (∃ t, exec .deq State.reset = .next t ∧ t.out.c.map (·.status) = some .ok) :=
  ⟨⟨_, rfl, rfl⟩, ⟨_, rfl, rfl⟩, ⟨_, rfl, rfl⟩, ⟨_, rfl, rfl⟩, ⟨_, rfl, rfl⟩⟩

theorem witness_BufferSurvivesCloseAndOpen :
    let s := machine 1 4095 [(0, 0x91), (4095, 0x5B)] true
    s.inUse = true ∧ s.head ≠ s.tail ∧ s.slot.read s.tail.toNat = some 0x5B ∧ nextIndex s.head ≠ s.tail := by decide

theorem witness_StepRunsTheDecodedOperation :
    (machineWith State.reset (StepInput.ofWord (.c ⟨1, 0, true, false⟩))).script = StepInput.ofWord (.c ⟨1, 0, true, false⟩) :: [] ∧
    decode (.c ⟨1, 0, true, false⟩) = .ok (.openSession true) := ⟨rfl, rfl⟩

theorem witness_PlacedTableWordRunsNext :
    decodeTableWord 8 4 = some .close ∧ decodeTableWord 16 0x1FF = some (.enq 0xFF) := ⟨rfl, rfl⟩

theorem witness_ReservedCodeAnswersIllegalCommand :
    (machineWith State.reset (Line.reserved 5)).script = StepInput.ofWord (.c ⟨5, 0, false, false⟩) :: [] ∧
    5 ≤ (⟨5, 0, false, false⟩ : CPins).cmd.toNat := by decide

theorem witness_StepWithNothingPresentedIsIdle : State.reset.script = [] := rfl

theorem witness_StepJoinsBothPorts :
    let line := Line.both (Line.op (.enq 9)) (Line.op .deq)
    (machineWith State.reset line).script = line :: [] ∧ line.p = some 0x109 ∧ line.c = some ⟨0, 0, false, false⟩ ∧
    decodeC ⟨0, 0, false, false⟩ = .ok .deq ∧
    (∃ sp, exec (decodeP 0x109) { machineWith State.reset line with script := [], out := StepOut.quiet } = .next sp) ∧
    (∃ sc, exec .deq { machineWith State.reset line with script := [], out := StepOut.quiet } = .next sc) :=
  ⟨rfl, rfl, rfl, rfl, ⟨_, rfl⟩, ⟨_, rfl⟩⟩

theorem witness_ReservedCodeDoesNotStopPortP :
    let line := Line.both (Line.op (.enq 9)) (Line.reserved 7)
    (machineWith State.reset line).script = line :: [] ∧ line.p = some 0x109 ∧ line.c = some ⟨7, 0, false, false⟩ ∧
    5 ≤ (⟨7, 0, false, false⟩ : CPins).cmd.toNat ∧
    (∃ sp, exec (decodeP 0x109) { machineWith State.reset line with script := [], out := StepOut.quiet } = .next sp) :=
  ⟨rfl, rfl, rfl, by decide, _, rfl⟩

theorem witness_MachineStepIsBlockStep :
    (∃ b o, (machineWith State.reset (Line.op .deq)).toBlock.step Config.table (Line.op .deq) = .ok (b, o)) ∧
    (machine 0 4095 [] false).toBlock.step Config.table (Line.op .deq) = .error (.unwrittenSlot 4095) :=
  ⟨⟨_, _, rfl⟩, rfl⟩

/-- One line and block for each of the six clauses, in their order. -/
theorem witness_SameStepEqualsASequentialOrder :
    ((block8 7 7 [] false).empty = true ∧ (Line.op .deq).dequeues = true) ∧
    (Line.op .close).dequeues = false ∧
    ((block8 0 7 [(7, 1)] false).empty = false ∧ (block8 0 7 [(7, 1)] false).full = false ∧ (Line.op .deq).dequeues = true) ∧
    ((block8 0 7 [] false).step tableT (Line.both (Line.op (.enq 5)) (Line.op (.write 1))).cOnly =
        .ok (block8 0 7 [] false, { t := [], p := none, c := some ⟨.notOpen, 0, none⟩ }) ∧
      (Line.op (.write 1)).dequeues = false) ∧
    ((Line.both (Line.op (.enq 5)) Line.shortOpen).p.map decodeP = some (.enq 5) ∧
      (Line.both (Line.op (.enq 5)) Line.shortOpen).dequeues = false) ∧
    ((block8 7 7 [] false).step tableT (Line.both (Line.evt 0x9E) (Line.op .deq)).cOnly =
        .ok (block8 7 7 [] false, { t := [], p := none, c := some ⟨.ok, 0, none⟩ }) ∧
      (∀ w, (Line.both (Line.evt 0x9E) (Line.op .deq)).p = some w → testsSpace false (decodeP w) = false)) :=
  ⟨⟨rfl, rfl⟩, rfl, ⟨rfl, rfl, rfl⟩, ⟨rfl, rfl⟩, ⟨rfl, rfl⟩, ⟨rfl, fun w h => by cases h; rfl⟩⟩

theorem witness_CursorsMoveByAtMostOne :
    ∃ b o, (block8 7 6 [(6, 1)] true).step tableT (Line.both (Line.evt 1) (Line.op (.read 1 false))) = .ok (b, o) ∧
      o.p = some ⟨true, true⟩ ∧ lostItem o = true := ⟨_, _, rfl, rfl, rfl⟩

/-- Two items round the wrap: cells 7 and 0. -/
theorem witness_inv_block : (block8 1 7 [(0, 0x91), (7, 0x5B)] true).Inv := ⟨by decide, by decide, by decide⟩

/-- The same in the machine: cells 4095 and 0. -/
theorem witness_inv_machine : (machine 1 4095 [(0, 0x91), (4095, 0x5B)] true).Inv := ⟨by decide, by decide, by decide⟩

theorem witness_StepKeepsTheInvariant :
    (machineWith (machine 1 4095 [(0, 0x91), (4095, 0x5B)] true) Line.shortRead).Inv ∧
    ∃ t, step (machineWith (machine 1 4095 [(0, 0x91), (4095, 0x5B)] true) Line.shortRead) = .next t :=
  ⟨witness_inv_machine, _, rfl⟩

theorem witness_StepNeverStopsUnderTheInvariant : (machine 1 4095 [(0, 0x91), (4095, 0x5B)] true).Inv :=
  witness_inv_machine

theorem witness_BlockRefinesTheBoundedQueue :
    legalWidth 3 = true ∧ (block8 1 7 [(0, 0x91), (7, 0x5B)] true).Inv := ⟨rfl, witness_inv_block⟩

theorem witness_RunsOfTheBlockAreRunsOfTheQueue :
    legalWidth 3 = true ∧ (block8 1 7 [(0, 0x91), (7, 0x5B)] true).Inv := ⟨rfl, witness_inv_block⟩

/-- A run that stores and delivers, and loses nothing. -/
theorem witness_ItemsAreDeliveredInArrivalOrder :
    legalWidth 3 = true ∧ (block8 1 7 [(0, 0x91), (7, 0x5B)] true).Inv ∧
    ∃ b os, (block8 1 7 [(0, 0x91), (7, 0x5B)] true).run tableT [Line.op (.enq 5), Line.op .deq] = .ok (b, os) ∧
      (∀ o ∈ os, lostItem o = false) ∧ deliveredIn os = [0x5B] :=
  ⟨rfl, witness_inv_block, _, _, rfl, by decide, rfl⟩

theorem witness_StoredLessTakenIsTheChangeOfCount :
    legalWidth 3 = true ∧ (block8 1 7 [(0, 0x91), (7, 0x5B)] true).Inv ∧
    ∃ b os, (block8 1 7 [(0, 0x91), (7, 0x5B)] true).run tableT [Line.op (.read 1 false), Line.op (.enq 5)] = .ok (b, os) ∧
      takenIn os = 1 :=
  ⟨rfl, witness_inv_block, _, _, rfl, rfl⟩

/-- The smallest depth, `C = 2`: an empty block and a full one. -/
theorem witness_BurstKeepsTheFirstValues :
    legalWidth 1 = true ∧
    ((⟨1, 1, [], false⟩ : Block 1).Inv ∧ (⟨1, 1, [], false⟩ : Block 1).empty = true) ∧
    ((⟨0, 1, [(1, 7)], false⟩ : Block 1).Inv ∧ (⟨0, 1, [(1, 7)], false⟩ : Block 1).full = true) :=
  ⟨rfl, ⟨⟨by decide, by decide, by decide⟩, rfl⟩, ⟨⟨by decide, by decide, by decide⟩, rfl⟩⟩

theorem witness_BehaviourDoesNotDependOnPosition :
    legalWidth 3 = true ∧ (block8 1 7 [(0, 0x91), (7, 0x5B)] true).Inv ∧ (block8 5 3 [(3, 0x5B), (4, 0x91)] true).Inv ∧
    (block8 1 7 [(0, 0x91), (7, 0x5B)] true).toFifo = (block8 5 3 [(3, 0x5B), (4, 0x91)] true).toFifo :=
  ⟨rfl, witness_inv_block, ⟨by decide, by decide, by decide⟩, rfl⟩

/-- Copies that lag: one freed slot and one stored item not seen yet. -/
def staleWitness : StaleBlock 3 :=
  { toBlock := block8 1 7 [(0, 0x91), (7, 0x5B)] true, tailSeen := 6, headSeen := 0 }

theorem witness_inv_stale : staleWitness.Inv := ⟨witness_inv_block, by decide, by decide⟩

theorem witness_StaleStepKeepsItsInvariant :
    legalWidth 3 = true ∧ staleWitness.Inv ∧
    ∃ r, staleWitness.step tableT 0 1 (Line.both (Line.op (.enq 5)) Line.shortRead) = .ok r :=
  ⟨rfl, witness_inv_stale, _, rfl⟩

/-- Both cursors move in the step, so both clauses on a move have their premise. -/
theorem witness_StaleCopiesOnlyHideSpaceAndItems :
    legalWidth 3 = true ∧ staleWitness.Inv ∧
    ∃ r, staleWitness.step tableT 0 1 (Line.both (Line.op (.enq 5)) Line.shortRead) = .ok r ∧
      r.1.head ≠ staleWitness.head ∧ r.1.tail ≠ staleWitness.tail :=
  ⟨rfl, witness_inv_stale, _, rfl, by decide, by decide⟩

theorem witness_StaleWithoutLagIsExact :
    depth 3 ≤ 8 ∧ ∃ b o, staleWitness.toBlock.step tableT (Line.both (Line.op (.enq 5)) Line.shortRead) = .ok (b, o) :=
  ⟨by decide, _, _, rfl⟩

theorem witness_StatusCodesAreDistinct : Status.busy.code = Status.busy.code := rfl

end Sys2Proof.Tests
end

/-! ## Proofs: the quantities derived from the cursors (R16) -/

namespace Sys2Proof.Machine

section
variable {aw : Nat}

theorem legalWidth_iff : legalWidth aw = true ↔ 1 ≤ aw := by simp [legalWidth]

/-- The difference of two cursors, read as a number, is the difference of the numbers modulo `C`. -/
theorem natCast_toNat_sub (x y : BitVec aw) :
    ((x - y).toNat : Int) = ((x.toNat : Int) - y.toNat) % (depth aw : Int) := by
  have hy : y.toNat ≤ depth aw := y.isLt.le
  calc ((x - y).toNat : Int)
      = (((depth aw - y.toNat + x.toNat) % depth aw : Nat) : Int) := by rw [BitVec.toNat_sub, depth]
    _ = ((depth aw : Int) + ((x.toNat : Int) - y.toNat)) % (depth aw : Int) := by
        rw [Int.natCast_emod, Nat.cast_add, Nat.cast_sub hy, sub_add_eq_add_sub, add_sub_assoc]
    _ = ((x.toNat : Int) - y.toNat) % (depth aw : Int) := Int.add_emod_left _ _

theorem Block.count_lt_depth (b : Block aw) : b.count < depth aw := (b.head - b.tail).isLt

theorem Block.natCast_count (b : Block aw) :
    (b.count : Int) = ((b.head.toNat : Int) - b.tail.toNat) % (depth aw : Int) := natCast_toNat_sub _ _

/-- At a width of at least 1 the constant `1#aw` is the number 1; at width 0 it is 0. -/
theorem Block.natCast_space (h : 1 ≤ aw) (b : Block aw) :
    (b.space : Int) = ((b.tail.toNat : Int) - b.head.toNat - 1) % (depth aw : Int) := by
  have h1 : (1#aw).toNat = 1 := BitVec.toNat_one h
  rw [Block.space, natCast_toNat_sub, natCast_toNat_sub, Int.emod_sub_emod, h1, Nat.cast_one]

/-- `space` is the bitwise complement of `count`, since `tail - head - 1` is `-(head - tail) - 1`. -/
theorem Block.space_eq_toNat_not (b : Block aw) : b.space = (~~~(b.head - b.tail)).toNat := by
  rw [Block.space, BitVec.not_eq_neg_add, neg_sub]

theorem Block.space_eq (b : Block aw) : b.space = depth aw - 1 - b.count := by
  rw [Block.space_eq_toNat_not, BitVec.toNat_not, depth, Block.count]

theorem Block.count_add_space (b : Block aw) : b.count + b.space = depth aw - 1 := by
  have := b.count_lt_depth
  rw [b.space_eq]
  omega

theorem Block.space_eq_zero_iff (b : Block aw) : b.space = 0 ↔ b.count = depth aw - 1 := by
  have := b.count_add_space
  omega

theorem Block.empty_iff (b : Block aw) : b.empty = true ↔ b.head = b.tail := beq_iff_eq

theorem Block.full_iff (b : Block aw) : b.full = true ↔ b.count = depth aw - 1 := beq_iff_eq

end

/-- Settles O26: `space` is the complement of `count`, and the forms of `empty` and `full` all go through `count`. -/
theorem derivedPredicatesAgree : Obligations.DerivedPredicatesAgree := by
  intro aw b hlegal
  have hw : 1 ≤ aw := legalWidth_iff.1 hlegal
  exact ⟨b.natCast_count, b.natCast_space hw, b.count_add_space,
    b.empty_iff, b.empty_iff.trans b.count_eq_zero_iff.symm,
    b.full_iff, b.full_iff.trans (nextIndex_eq_iff_count hw).symm, b.full_iff.trans b.space_eq_zero_iff.symm⟩

end Sys2Proof.Machine

/-! ## Proofs: what each port may write (R38) -/

namespace Sys2Proof.Machine

section
variable {aw : Nat} {T : Table} {seenTail seenHead : BitVec aw} {i : Instr} {b b' : Block aw} {a : Answer}

/-- Whatever port P reads for `tail`, a store moves `head` and writes a cell, and nothing else is written. -/
theorem Block.performSeeing_p_frame (hi : i.port = .p) (h : b.performSeeing T seenTail seenHead i = .ok (b', a)) :
    b'.tail = b.tail ∧ b'.inUse = b.inUse := by
  rcases b.performSeeing_p T seenTail seenHead i hi with ⟨_, _, dropped⟩ | ⟨_, _, _, _, stored⟩
  · cases dropped.symm.trans h
    exact ⟨rfl, rfl⟩
  · cases stored.symm.trans h
    exact ⟨rfl, rfl⟩

/-- Whatever port C reads for `head`, a taken item moves `tail`, a session operation writes `in_use`, and nothing else is
written. -/
theorem Block.performSeeing_c_frame (hi : i.port = .c) (h : b.performSeeing T seenTail seenHead i = .ok (b', a)) :
    b'.head = b.head ∧ b'.slot = b.slot := by
  rcases b.performSeeing_c T seenTail seenHead i hi with
    ⟨_, _, _, _, _, answered⟩ | ⟨_, _, _, _, _, _, taken⟩ | ⟨_, _, _, unwritten⟩
  · cases answered.symm.trans h
    exact ⟨rfl, rfl⟩
  · cases taken.symm.trans h
    exact ⟨rfl, rfl⟩
  · cases unwritten.symm.trans h

theorem Block.performSeeing_t_frame (hi : i.port = .t) (h : b.performSeeing T seenTail seenHead i = .ok (b', a)) :
    b' = b := by
  cases i with
  | lookup idx =>
    have answered : b.performSeeing T seenTail seenHead (.lookup idx) = .ok (b, .t (T idx)) := rfl
    cases answered.symm.trans h
    rfl
  | evtPress _ | evtRelease _ | enq _ | deq | openSession _ | read _ _ | write _ | close => cases hi

/-- A next state of `exec` is the block's own reply to the operation, shown on its port; all else is kept. -/
theorem exec_eq_next {s t : State} (h : exec i s = .next t) :
    ∃ b' a, s.toBlock.perform Config.table i = .ok (b', a) ∧ t = { s with toBlock := b', out := s.out.put a } :=
  State.answer_eq_next ((exec_eq_perform i s).symm.trans h)

end

/-- Settles O29: the block's reply to an operation, taken apart port by port. -/
theorem eachPortWritesOnlyWhatItOwns : Obligations.EachPortWritesOnlyWhatItOwns := by
  intro i s t h
  obtain ⟨b', a, hreply, rfl⟩ := exec_eq_next h
  exact ⟨fun hp => Block.performSeeing_p_frame hp hreply, fun hc => Block.performSeeing_c_frame hc hreply,
    fun ht => Block.performSeeing_t_frame ht hreply⟩

end Sys2Proof.Machine

/-! ## Proofs: the table index of a raw byte (R58) -/

namespace Sys2Proof.Machine

section
variable (b : Byte)

/-- Nine bits hold both masked parts, so neither the widening nor the shift loses a bit. -/
theorem toNat_tableIndex : (tableIndex b).toNat = (b.toNat &&& 0x7F) ||| ((b.toNat &&& 0x80) <<< 1) := by
  have hkey : b.toNat &&& 0x7F ≤ 0x7F := Nat.and_le_right
  have hrel : b.toNat &&& 0x80 ≤ 0x80 := Nat.and_le_right
  have hshift : (b.toNat &&& 0x80) <<< 1 ≤ 0x100 := by
    rw [Nat.shiftLeft_eq]
    omega
  simp (disch := omega) only [tableIndex, BitVec.toNat_or, BitVec.toNat_shiftLeft, BitVec.toNat_setWidth,
    BitVec.toNat_and, BitVec.toNat_ofNat, Nat.reducePow, Nat.mod_eq_of_lt]

/-- Bit by bit: bits 0 to 6 come from the low mask, bit 8 from the shifted flag, and no part reaches bit 7. -/
theorem tableIndex_eq_fields : tableIndex b = BitVec.ofBool (rel b) ++ (0#1 ++ key b) := by
  refine BitVec.eq_of_getLsbD_eq fun i hi => ?_
  rw [BitVec.getLsbD_append, BitVec.getLsbD_append]
  interval_cases i <;> simp [tableIndex, rel, key]

/-- The 0 bit between the fields makes the flag weigh 256. -/
theorem toNat_tableIndex_eq_add : (tableIndex b).toNat = 256 * (rel b).toNat + (key b).toNat := by
  have hkey : (0#1 ++ key b).toNat = (key b).toNat := by
    rw [BitVec.toNat_append]
    simp
  rw [tableIndex_eq_fields, BitVec.toNat_append, ← Nat.shiftLeft_add_eq_or_of_lt (BitVec.isLt _), Nat.shiftLeft_eq, hkey,
    BitVec.toNat_ofBool, Nat.mul_comm]

end

/-- Settles O7: both forms of the index; the ranges are those of its two fields, the flag weighing 256. -/
theorem tableIndexMovesReleaseFlagToBitEight : Obligations.TableIndexMovesReleaseFlagToBitEight := by
  intro b
  have hkey : (key b).toNat < 128 := (key b).isLt
  have hsum := toNat_tableIndex_eq_add b
  refine ⟨toNat_tableIndex b, tableIndex_eq_fields b, fun hpressed => ?_, fun hreleased => ?_⟩
  · rw [hpressed, Bool.toNat_false] at hsum
    omega
  · rw [hreleased, Bool.toNat_true] at hsum
    omega

end Sys2Proof.Machine

/-! ## Proofs: the press path and the lookup path translate alike (R72) -/

namespace Sys2Proof.Machine

theorem rel_pressByte (k : Key) : rel (pressByte k) = false := by
  rw [rel, pressByte, BitVec.getLsbD_append]
  rfl

theorem key_pressByte (k : Key) : key (pressByte k) = k := BitVec.extractLsb'_append_eq_right

/-- A pressed byte has release flag 0, so the index of its translation is the key itself (R92). -/
theorem tableIndex_pressByte (k : Key) : tableIndex (pressByte k) = k.setWidth 9 := by
  refine BitVec.eq_of_toNat_eq ?_
  have hkey : k.toNat < 2 ^ 9 := by omega
  rw [toNat_tableIndex_eq_add, rel_pressByte, key_pressByte, BitVec.toNat_setWidth, Nat.mod_eq_of_lt hkey,
    Bool.toNat_false, Nat.mul_zero, Nat.zero_add]

theorem Block.tryEnqueue_of_room {aw : Nat} {seenTail : BitVec aw} {b : Block aw} (hroom : nextIndex b.head ≠ seenTail)
    (v : Byte) : b.tryEnqueue seenTail v =
      ({ b with slot := b.slot.write b.head.toNat v, head := nextIndex b.head }, true) :=
  if_pos hroom

/-- A press in an open session with room stores the key code at `head` and advances (R92). -/
theorem exec_evtPress_of_room {s : State} (hopen : s.inUse = true) (hroom : nextIndex s.head ≠ s.tail) (k : Key) :
    exec (.evtPress k) s = .next { s with
      slot := s.slot.write s.head.toNat (Config.table (k.setWidth 9))
      head := nextIndex s.head
      out := { s.out with p := some ⟨true, true⟩ } } := by
  have hreply : Block.evtPress Config.table s.tail k s.toBlock =
      .ok ({ s.toBlock with slot := s.slot.write s.head.toNat (Config.table (k.setWidth 9)), head := nextIndex s.head },
        .p ⟨true, true⟩) := by
    rw [Block.evtPress, Block.whenSubscribed_open hopen, Block.tryEnqueue_of_room hroom, tableIndex_pressByte]
  exact congrArg s.answer hreply

/-- `LOOKUP` adds its entry to what port T shows, in every state (R70). -/
theorem exec_lookup (idx : TIndex) (s : State) :
    exec (.lookup idx) s = .next { s with out := { s.out with t := s.out.t ++ [Config.table idx] } } := rfl

/-- Settles O23: both paths read the same table entry, since the index of a pressed byte is its key. -/
theorem pressAndLookupTranslateAlike : Obligations.PressAndLookupTranslateAlike := by
  intro k s hopen hroom
  exact ⟨_, _, exec_evtPress_of_room hopen hroom k, Memory.read_write_same _ _ _, exec_lookup _ s, rfl⟩

end Sys2Proof.Machine

/-! ## Proofs: bursts of enqueues (R80) -/

namespace Sys2Proof.Machine

section
variable {aw : Nat}

/-- The buffer is full, as `tryEnqueue` tests it, exactly when no free slot is left. -/
theorem nextIndex_eq_iff_space {b : Block aw} (hw : 1 ≤ aw) : nextIndex b.head = b.tail ↔ b.space = 0 :=
  (nextIndex_eq_iff_count hw).trans b.space_eq_zero_iff.symm

/-- A store uses up one free slot. -/
theorem Block.space_stored {b : Block aw} {v : Byte} (hroom : nextIndex b.head ≠ b.tail) :
    (b.stored v).space + 1 = b.space := by
  have hcount : (b.stored v).count = b.count + 1 := Block.count_stored hroom
  have hbefore := b.count_add_space
  have hafter := (b.stored v).count_add_space
  omega

/-- Bit 8 of the word of `ENQ v` is set, and its low byte is `v` (R52). -/
theorem decodeP_enq (v : Byte) : decodeP (1#1 ++ v) = .enq v := by
  have hselect : (1#1 ++ v).getLsbD 8 = true := by
    rw [BitVec.getLsbD_append]
    rfl
  have hlow : (1#1 ++ v).extractLsb' 0 8 = v := BitVec.extractLsb'_append_eq_right
  rw [decodeP, if_pos hselect, hlow]

variable {T : Table} {b : Block aw}

theorem Block.tryEnqueue_of_full {seenTail : BitVec aw} (hfull : nextIndex b.head = seenTail) (v : Byte) :
    b.tryEnqueue seenTail v = (b, false) :=
  if_neg (not_not.2 hfull)

/-- A line that carries only `ENQ v` runs the operation and leaves port C quiet. -/
theorem Block.step_enq (v : Byte) :
    b.step T (Line.op (.enq v)) =
      .ok (Block.merge (b.tryEnqueue b.tail v).1 b,
        { t := [], p := some ⟨(b.tryEnqueue b.tail v).2, false⟩, c := none }) := by
  have hport : b.onP T b.tail (some (1#1 ++ v)) = Reply.alone (b.enq b.tail v) := by
    rw [Block.onP, decodeP_enq]
    rfl
  show b.stepSeeing T b.tail b.head ⟨[], some (1#1 ++ v), none⟩ = _
  rw [Block.stepSeeing, hport]
  rfl

theorem Block.step_enq_of_room (hroom : nextIndex b.head ≠ b.tail) (v : Byte) :
    b.step T (Line.op (.enq v)) = .ok (b.stored v, { t := [], p := some ⟨true, false⟩, c := none }) := by
  rw [Block.step_enq, Block.tryEnqueue_of_room hroom]
  rfl

theorem Block.step_enq_of_full (hfull : nextIndex b.head = b.tail) (v : Byte) :
    b.step T (Line.op (.enq v)) = .ok (b, { t := [], p := some ⟨false, false⟩, c := none }) := by
  rw [Block.step_enq, Block.tryEnqueue_of_full hfull]
  rfl

/-- A line that carries only `DEQ` takes the item at `tail` and delivers it. -/
theorem Block.step_deq_of_item {v : Byte} (hne : b.head ≠ b.tail) (hread : b.slot.read b.tail.toNat = some v) :
    b.step T (Line.op .deq) = .ok (b.taken, { t := [], p := none, c := some ⟨.ok, 0, some v⟩ }) := by
  have htake : b.tryDequeue b.head = .ok (b.taken, some v) := by
    rw [Block.tryDequeue, if_pos hne, hread]
  have hport : b.onC T b.head (some ⟨0, 0, false, false⟩) = Reply.alone (b.deq b.head) := rfl
  show b.stepSeeing T b.tail b.head ⟨[], none, some ⟨0, 0, false, false⟩⟩ = _
  rw [Block.stepSeeing, hport, Block.deq, htake]
  rfl

theorem Block.run_cons {inp : StepInput} {rest : List StepInput} {b' b'' : Block aw} {o : StepOut} {os : List StepOut}
    (hstep : b.step T inp = .ok (b', o)) (hrest : b'.run T rest = .ok (b'', os)) :
    b.run T (inp :: rest) = .ok (b'', o :: os) := by
  rw [Block.run, hstep]
  simp only [hrest]

/-- The answers of port P to a burst of `n` enqueues of which the first `room` are stored. -/
def burstAnswers (room n : Nat) : List (Option PResult) :=
  (List.range n).map fun k => some ⟨decide (k < room), false⟩

/-- One stored value first, then a burst with one free slot less. -/
theorem burstAnswers_succ_of_room (room n : Nat) :
    burstAnswers (room + 1) (n + 1) = some ⟨true, false⟩ :: burstAnswers room n := by
  simp [burstAnswers, List.range_succ_eq_map]

/-- With no free slot every value is dropped. -/
theorem burstAnswers_succ_of_full (n : Nat) :
    burstAnswers 0 (n + 1) = some ⟨false, false⟩ :: burstAnswers 0 n := by
  simp [burstAnswers, List.range_succ_eq_map, Function.comp_def]

/-- A burst of enqueues from any fill level: the queue grows by the first `space` values, and exactly those are answered
`p_ok = 1`. -/
theorem Block.run_burst (hw : 1 ≤ aw) (vs : List Byte) (b : Block aw) :
    ∃ b' os, b.run T (vs.map fun v => Line.op (.enq v)) = .ok (b', os) ∧
      b'.queue = b.queue ++ vs.take b.space ∧ os.map (·.p) = burstAnswers b.space vs.length := by
  induction vs generalizing b with
  | nil => exact ⟨b, [], rfl, by simp, rfl⟩
  | cons v vs ih =>
    by_cases hfull : nextIndex b.head = b.tail
    · obtain ⟨b', os, hrun, hqueue, hanswers⟩ := ih b
      have hspace : b.space = 0 := (nextIndex_eq_iff_space hw).1 hfull
      refine ⟨b', _, Block.run_cons (Block.step_enq_of_full hfull v) hrun, ?_, ?_⟩
      · simpa [hspace] using hqueue
      · rw [List.map_cons, hanswers, hspace, List.length_cons, burstAnswers_succ_of_full]
    · obtain ⟨b', os, hrun, hqueue, hanswers⟩ := ih (b.stored v)
      refine ⟨b', _, Block.run_cons (Block.step_enq_of_room hfull v) hrun, ?_, ?_⟩
      · rw [hqueue, Block.queue_stored hfull, ← Block.space_stored hfull (v := v), List.take_succ_cons,
          List.append_assoc, List.singleton_append]
      · rw [List.map_cons, hanswers, ← Block.space_stored hfull (v := v), List.length_cons,
          burstAnswers_succ_of_room]

/-- An empty buffer has all `C - 1` slots free. -/
theorem Block.space_of_empty (hempty : b.empty = true) : b.space = depth aw - 1 := by
  have hcount : b.count = 0 := b.count_eq_zero_iff.2 (b.empty_iff.1 hempty)
  have := b.count_add_space
  omega

theorem Block.queue_of_empty (hempty : b.empty = true) : b.queue = [] := by
  rw [Block.queue, b.count_eq_zero_iff.2 (b.empty_iff.1 hempty), Memory.region_zero]

/-- Taking an item leaves a free slot. -/
theorem Block.taken_room (hw : 1 ≤ aw) (hne : b.head ≠ b.tail) : nextIndex b.taken.head ≠ b.taken.tail := by
  intro hfull
  have hcount : b.taken.count = depth aw - 1 := (nextIndex_eq_iff_count hw).1 hfull
  have := Block.count_taken hne
  have := b.count_lt_depth
  omega

end

/-- Settles O54: from empty, a burst into `C - 1` free slots; from full, the dropped enqueue, then a dequeue of the
oldest item and the store into the slot it freed. -/
theorem burstKeepsTheFirstValues : Obligations.BurstKeepsTheFirstValues := by
  intro aw T b hlegal hinv
  have hw : 1 ≤ aw := legalWidth_iff.1 hlegal
  refine ⟨fun vs hempty => ?_, fun v w hfull => ?_⟩
  · obtain ⟨b', os, hrun, hqueue, hanswers⟩ := Block.run_burst hw vs b
    rw [Block.space_of_empty hempty] at hqueue hanswers
    rw [Block.queue_of_empty hempty, List.nil_append] at hqueue
    exact ⟨b', os, hrun, hqueue, hanswers⟩
  · have hnext : nextIndex b.head = b.tail := (nextIndex_eq_iff_count hw).2 (b.full_iff.1 hfull)
    have hne : b.head ≠ b.tail := fun he => nextIndex_ne_self hw b.head (hnext.trans he.symm)
    obtain ⟨x, hread⟩ := hinv.read_tail hne
    have hroom := Block.taken_room hw hne
    have hqueue : b.taken.queue = b.queue.drop 1 := by
      rw [Block.queue_taken hne hread, List.drop_one, List.tail_cons]
    refine ⟨Block.step_enq_of_full hnext v, b.taken, b.taken.stored w, _, Block.step_deq_of_item hne hread, hqueue,
      Block.step_enq_of_room hroom w, ?_⟩
    rw [Block.queue_stored hroom, hqueue]

end Sys2Proof.Machine

/-! ## Proofs: the Event Producer in an open session (R91, R92, R93) -/

namespace Sys2Proof.Machine

section
variable {s : State}

/-- A press in an open session with a full buffer is dropped and still handled (R92). -/
theorem exec_evtPress_of_full (hopen : s.inUse = true) (hfull : nextIndex s.head = s.tail) (k : Key) :
    exec (.evtPress k) s = .next { s with out := { s.out with p := some ⟨false, true⟩ } } := by
  have hreply : Block.evtPress Config.table s.tail k s.toBlock = .ok (s.toBlock, .p ⟨false, true⟩) := by
    rw [Block.evtPress, Block.whenSubscribed_open hopen, Block.tryEnqueue_of_full hfull]
  exact congrArg s.answer hreply

/-- A release in an open session is filtered and handled (R91). -/
theorem exec_evtRelease_of_open (hopen : s.inUse = true) (k : Key) :
    exec (.evtRelease k) s = .next { s with out := { s.out with p := some ⟨false, true⟩ } } :=
  congrArg s.answer (Block.whenSubscribed_open hopen _)

end

/-- Settles O25: a press finds room or a full buffer, a release is filtered; each answers `p_handled = 1` on port P
alone. -/
theorem eventInOpenSessionIsAlwaysHandled : Obligations.EventInOpenSessionIsAlwaysHandled := by
  rintro k i s hopen (rfl | rfl)
  · by_cases hfull : nextIndex s.head = s.tail
    · exact ⟨_, false, exec_evtPress_of_full hopen hfull k, rfl, rfl⟩
    · exact ⟨_, true, exec_evtPress_of_room hopen hfull k, rfl, rfl⟩
  · exact ⟨_, false, exec_evtRelease_of_open hopen k, rfl, rfl⟩

end Sys2Proof.Machine

/-! ## Proofs: the buffer and the session at OPEN, READ and CLOSE (R101 to R110) -/

namespace Sys2Proof.Machine

section
variable {aw : Nat} {b : Block aw} {seenHead : BitVec aw}

theorem Block.tryDequeue_of_item {v : Byte} (hne : seenHead ≠ b.tail) (hread : b.slot.read b.tail.toNat = some v) :
    b.tryDequeue seenHead = .ok (b.taken, some v) := by
  rw [Block.tryDequeue, if_pos hne, hread]

theorem Block.tryDequeue_of_empty (hempty : seenHead = b.tail) : b.tryDequeue seenHead = .ok (b, none) :=
  if_neg (not_not.2 hempty)

end

section
variable {s : State}

/-- An `OPEN` of an open session is answered before `c_sub_ok` is looked at (R101, R110). -/
theorem exec_openSession_of_open (hopen : s.inUse = true) (subOk : Bool) :
    exec (.openSession subOk) s = .next { s with out := { s.out with c := some ⟨.busy, 0, none⟩ } } := by
  have hreply : s.toBlock.openSession subOk = .ok (s.toBlock, .c ⟨.busy, 0, none⟩) := if_pos hopen
  exact congrArg s.answer hreply

/-- A successful `OPEN` of a closed session writes `in_use` and nothing else of the block (R101). -/
theorem exec_openSession_of_closed (hclosed : s.inUse = false) :
    exec (.openSession true) s =
      .next { s with inUse := true, out := { s.out with c := some ⟨.ok, 0, none⟩ } } := by
  have hreply : s.toBlock.openSession true = .ok ({ s.toBlock with inUse := true }, .c ⟨.ok, 0, none⟩) :=
    if_neg (Bool.eq_false_iff.1 hclosed)
  exact congrArg s.answer hreply

/-- `CLOSE` of an open session clears `in_use` and nothing else of the block (R107). -/
theorem exec_close_of_open (hopen : s.inUse = true) :
    exec .close s = .next { s with inUse := false, out := { s.out with c := some ⟨.ok, 0, none⟩ } } :=
  congrArg s.answer (Block.whenOpen_open hopen _)

/-- `READ` takes the item at `tail` whatever becomes of the copy, which decides the answer only (R103, R104). -/
theorem exec_read_of_item {v : Byte} (hopen : s.inUse = true) (hne : s.head ≠ s.tail)
    (hread : s.slot.read s.tail.toNat = some v) (len : Len) (copyOk : Bool) :
    exec (.read len copyOk) s = .next { s with
      tail := nextIndex s.tail
      out := { s.out with c := some (if copyOk then ⟨.ok, len, some v⟩ else ⟨.copyFault, 0, none⟩) } } := by
  have hreply : s.toBlock.sessionRead s.head len copyOk =
      .ok (s.toBlock.taken, .c (if copyOk then ⟨.ok, len, some v⟩ else ⟨.copyFault, 0, none⟩)) := by
    rw [Block.sessionRead, Block.whenOpen_open hopen, Block.tryDequeue_of_item hne hread]
    cases copyOk <;> rfl
  exact congrArg s.answer hreply

/-- `READ` of an empty buffer changes nothing and attempts no copy (R105). -/
theorem exec_read_of_empty (hopen : s.inUse = true) (hempty : s.head = s.tail) (len : Len) (copyOk : Bool) :
    exec (.read len copyOk) s = .next { s with out := { s.out with c := some ⟨.ok, len, none⟩ } } := by
  have hreply : s.toBlock.sessionRead s.head len copyOk = .ok (s.toBlock, .c ⟨.ok, len, none⟩) := by
    rw [Block.sessionRead, Block.whenOpen_open hopen, Block.tryDequeue_of_empty hempty]
  exact congrArg s.answer hreply

/-- `ENQ` stores into room whatever the session state is (R75, D21). -/
theorem exec_enq_of_room (hroom : nextIndex s.head ≠ s.tail) (v : Byte) :
    exec (.enq v) s = .next { s with
      slot := s.slot.write s.head.toNat v
      head := nextIndex s.head
      out := { s.out with p := some ⟨true, false⟩ } } := by
  have hreply : s.toBlock.enq s.tail v = .ok (s.toBlock.stored v, .p ⟨true, false⟩) := by
    rw [Block.enq, Block.tryEnqueue_of_room hroom]
  exact congrArg s.answer hreply

/-- `DEQ` takes and delivers the item at `tail` whatever the session state is (R76, D21). -/
theorem exec_deq_of_item {v : Byte} (hne : s.head ≠ s.tail) (hread : s.slot.read s.tail.toNat = some v) :
    exec .deq s = .next { s with
      tail := nextIndex s.tail
      out := { s.out with c := some ⟨.ok, 0, some v⟩ } } := by
  have hreply : s.toBlock.deq s.head = .ok (s.toBlock.taken, .c ⟨.ok, 0, some v⟩) := by
    rw [Block.deq, Block.tryDequeue_of_item hne hread]
  exact congrArg s.answer hreply

end

/-- Settles O34: `CLOSE` and `OPEN` write `in_use` only, so the block after both is the block before them, and the block
between them differs from it in `in_use` alone. -/
theorem bufferSurvivesCloseAndOpen : Obligations.BufferSurvivesCloseAndOpen := by
  intro s hopen
  obtain ⟨t, hclose, ht⟩ : ∃ t, exec .close s = .next t ∧ t.toBlock = { s.toBlock with inUse := false } :=
    ⟨_, exec_close_of_open hopen, rfl⟩
  have hclosed : t.inUse = false := by rw [ht]
  have hhead : t.head = s.head := by rw [ht]
  have htail : t.tail = s.tail := by rw [ht]
  have hslot : t.slot = s.slot := by rw [ht]
  obtain ⟨u, hreopen, hu⟩ : ∃ u, exec (.openSession true) t = .next u ∧ u.toBlock = s.toBlock :=
    ⟨_, exec_openSession_of_closed hclosed, by rw [hhead, htail, hslot, ← hopen]⟩
  refine ⟨t, u, hclose, hreopen, hclosed, by rw [hu, hopen], hhead, htail, hslot, by rw [hu], by rw [hu], by rw [hu],
    by rw [hu], fun len v hne hread => ?_, fun v hroom => ?_, fun v hne hread => ?_⟩
  · exact ⟨_, _, exec_read_of_item (by rw [hu, hopen]) (by rwa [hu]) (by rwa [hu]) len true, rfl, rfl⟩
  · exact ⟨_, exec_enq_of_room (by rwa [hhead, htail]) v, congrArg nextIndex hhead, hclosed⟩
  · exact ⟨_, exec_deq_of_item (v := v) (by rwa [hhead, htail]) (by rwa [hslot, htail]), congrArg nextIndex htail,
      hclosed⟩

/-- Settles O16: the empty buffer decides the answer before the copy outcome is looked at. -/
theorem emptyReadReportsRequestedLength : Obligations.EmptyReadReportsRequestedLength :=
  fun len copyOk _ hopen hempty => exec_read_of_empty hopen hempty len copyOk

/-- Settles O17: the failed copy leaves `tail` at the item after the lost one, which a second `READ` takes; an empty
buffer attempts no copy. -/
theorem copyFaultLosesTheItem : Obligations.CopyFaultLosesTheItem := by
  refine fun len v s hopen => ⟨fun hne hread => ?_, fun hempty copyOk t hexec => ?_⟩
  · obtain ⟨t, hfault, ht, hout⟩ : ∃ t, exec (.read len false) s = .next t ∧ t.toBlock = s.toBlock.taken ∧
        t.out.c = some ⟨.copyFault, 0, none⟩ :=
      ⟨_, exec_read_of_item hopen hne hread len false, rfl, rfl⟩
    have hstillOpen : t.inUse = true := by rw [ht, hopen]
    refine ⟨t, _, hfault, hout, rfl, rfl, by rw [ht], by rw [ht], by rw [ht], hstillOpen,
      fun len' w hne' hread' => ?_⟩
    exact ⟨_, _, exec_read_of_item hstillOpen hne' (by rwa [ht]) len' true, rfl, rfl⟩
  · cases (exec_read_of_empty hopen hempty len copyOk).symm.trans hexec
    exact ⟨_, rfl, nofun⟩

/-- Settles O21: the session bit is tested first, and the `BUSY` answer replaces nothing of the block. -/
theorem secondOpenIsBusyAndDisturbsNothing : Obligations.SecondOpenIsBusyAndDisturbsNothing :=
  fun subOk _ hopen => ⟨_, _, exec_openSession_of_open hopen subOk, rfl, rfl, rfl, rfl, rfl, hopen⟩

end Sys2Proof.Machine

/-! ## Proofs: the order of the tests of OPEN (R121, R122) -/

namespace Sys2Proof.Machine

/-- An `OPEN` of a closed session whose subscription fails writes nothing of the block (R101, R122). -/
theorem exec_openSession_of_closed_of_unsubscribed {s : State} (hclosed : s.inUse = false) :
    exec (.openSession false) s =
      .next { s with out := { s.out with c := some ⟨.subscriptionFailed, 0, none⟩ } } := by
  have hreply : s.toBlock.openSession false = .ok (s.toBlock, .c ⟨.subscriptionFailed, 0, none⟩) :=
    if_neg (Bool.eq_false_iff.1 hclosed)
  exact congrArg s.answer hreply

/-- Settles O14: the session bit decides before the subscription does; after a failed subscription the session is still
closed, so a subscribed `OPEN` meets the same closed block and succeeds. -/
theorem openTestsInUseThenSubscription : Obligations.OpenTestsInUseThenSubscription := by
  refine fun subOk s => ⟨fun hopen => ?busy, fun hclosed hsub => ?failed, fun hclosed hsub => ?opened⟩
  case busy => exact exec_openSession_of_open hopen subOk
  case failed =>
    subst hsub
    exact ⟨_, exec_openSession_of_closed_of_unsubscribed hclosed, rfl, _, exec_openSession_of_closed hclosed, rfl⟩
  case opened =>
    subst hsub
    exact exec_openSession_of_closed hclosed

end Sys2Proof.Machine

/-! ## Proofs: the words of the operations (R52, R54, R57, R59, R60) -/

namespace Sys2Proof.Machine

/-- An `EVT` word decodes by its release flag, and its low bits are the key (R51, R52). -/
theorem decodeP_evt (r : Bool) (k : Key) :
    decodeP (0#1 ++ (BitVec.ofBool r ++ k)) = if r then .evtRelease k else .evtPress k := by
  have hselect : (0#1 ++ (BitVec.ofBool r ++ k)).getLsbD 8 = false := by
    rw [BitVec.getLsbD_append]
    rfl
  have hflag : (0#1 ++ (BitVec.ofBool r ++ k)).getLsbD 7 = r := by
    rw [BitVec.getLsbD_append, BitVec.getLsbD_append]
    cases r <;> rfl
  have hlow : (0#1 ++ (BitVec.ofBool r ++ k)).extractLsb' 0 7 = k := by
    rw [BitVec.extractLsb'_append_eq_of_add_le (by decide), BitVec.extractLsb'_append_eq_right]
  rw [decodeP, hselect, hflag, hlow]
  rfl

/-- Settles O1: port P by the fields of its words, ports T and C by their definitions. -/
theorem encodedOperationDecodesToItself : Obligations.EncodedOperationDecodesToItself := by
  intro i
  cases i with
  | evtPress k => exact congrArg Except.ok (decodeP_evt false k)
  | evtRelease k => exact congrArg Except.ok (decodeP_evt true k)
  | enq v => exact congrArg Except.ok (decodeP_enq v)
  | lookup _ | deq | openSession _ | read _ _ | write _ | close => rfl

section
variable (w : BitVec 9)

/-- A word of port P is its flag `p_cmd[8]` before its low byte (R52). -/
theorem ofBool_append_low8 : BitVec.ofBool (w.getLsbD 8) ++ w.extractLsb' 0 8 = w := by
  refine BitVec.eq_of_getLsbD_eq fun i hi => ?_
  rw [BitVec.getLsbD_append]
  interval_cases i <;> simp

/-- A word of port P is its two flags before its low seven bits (R51, R52). -/
theorem ofBool_append_low7 :
    BitVec.ofBool (w.getLsbD 8) ++ (BitVec.ofBool (w.getLsbD 7) ++ w.extractLsb' 0 7) = w := by
  refine BitVec.eq_of_getLsbD_eq fun i hi => ?_
  rw [BitVec.getLsbD_append, BitVec.getLsbD_append]
  interval_cases i <;> simp

/-- The operation of a word of port P keeps all of its bits: port P has no reserved code (R52). -/
theorem encode_decodeP : encode (decodeP w) = .p w := by
  unfold decodeP
  have hbyte := ofBool_append_low8 w
  have hkey := ofBool_append_low7 w
  cases hselect : w.getLsbD 8 with
  | true =>
    rw [hselect] at hbyte
    exact congrArg PortWord.p hbyte
  | false =>
    rw [hselect] at hkey
    cases hflag : w.getLsbD 7 <;> rw [hflag] at hkey <;> exact congrArg PortWord.p hkey

end

/-- A word of port C that decodes has one of the five codes, and gives the operation of its code (R54). -/
theorem decodeC_eq_ok {pins : CPins} {i : Instr} (h : decodeC pins = .ok i) :
    (i = .deq ∧ pins.cmd.toNat = 0) ∨ (i = .openSession pins.subOk ∧ pins.cmd.toNat = 1) ∨
    (i = .read pins.len pins.copyOk ∧ pins.cmd.toNat = 2) ∨ (i = .write pins.len ∧ pins.cmd.toNat = 3) ∨
    (i = .close ∧ pins.cmd.toNat = 4) := by
  have hcases := decodeC_cases pins
  simpa [h] using hcases

/-- The word of the operation decoded from port C has the code it was decoded from (R54). -/
theorem encode_decodeC {pins : CPins} {i : Instr} (h : decodeC pins = .ok i) :
    ∃ pins', encode i = .c pins' ∧ pins'.cmd = pins.cmd := by
  rcases decodeC_eq_ok h with ⟨rfl, hcode⟩ | ⟨rfl, hcode⟩ | ⟨rfl, hcode⟩ | ⟨rfl, hcode⟩ | ⟨rfl, hcode⟩ <;>
    exact ⟨_, rfl, BitVec.eq_of_toNat_eq hcode.symm⟩

/-- Settles O2: port P by the parts of its words, port T by definition, port C code by code. -/
theorem commandWordsHaveOneMeaning : Obligations.CommandWordsHaveOneMeaning :=
  ⟨encode_decodeP, fun _ => rfl, fun _ _ => encode_decodeC⟩

theorem decodeC_of_reserved {pins : CPins} (h : 5 ≤ pins.cmd.toNat) :
    decodeC pins = .error (.reservedPortC pins.cmd) := by
  rcases decodeC_cases pins with ⟨_, hcode⟩ | ⟨_, hcode⟩ | ⟨_, hcode⟩ | ⟨_, hcode⟩ | ⟨_, hcode⟩ | ⟨e, _⟩
  iterate 5 omega
  exact e

theorem decodeC_of_lt {pins : CPins} (h : pins.cmd.toNat < 5) : ∃ i, decodeC pins = .ok i := by
  rcases decodeC_cases pins with ⟨e, _⟩ | ⟨e, _⟩ | ⟨e, _⟩ | ⟨e, _⟩ | ⟨e, _⟩ | ⟨_, hcode⟩
  iterate 5 exact ⟨_, e⟩
  omega

/-- Settles O3: a code is below 5 and decodes, or it is rejected. -/
theorem onlyPortCCodesFiveToSevenAreReserved : Obligations.OnlyPortCCodesFiveToSevenAreReserved := by
  refine ⟨fun pins => ⟨fun hrejected => ?_, decodeC_of_reserved⟩, fun _ => decodeC_of_lt, fun _ => ⟨_, rfl⟩,
    fun _ => ⟨_, rfl⟩⟩
  by_contra hlt
  obtain ⟨i, hdecoded⟩ := decodeC_of_lt (Nat.lt_of_not_le hlt)
  cases hdecoded.symm.trans hrejected

/-- Settles O4: the decoder evaluated on the nine words. -/
theorem sampleWordsDecode : Obligations.SampleWordsDecode :=
  ⟨rfl, rfl, rfl, rfl, rfl, rfl, rfl, rfl, rfl⟩

/-! ### The opcode table (R59) -/

/-- The rows of the opcode table. -/
def opcodeTable : List TableRow :=
  [(Instr.lookup 0).row, (Instr.evtPress 0).row, (Instr.evtRelease 0).row, (Instr.enq 0).row, Instr.deq.row,
    (Instr.openSession false).row, (Instr.read 0 false).row, (Instr.write 0).row, Instr.close.row]

/-- An operand does not change the row. -/
theorem row_mem_opcodeTable (i : Instr) : i.row ∈ opcodeTable := by
  cases i <;> simp [opcodeTable, Instr.row]

/-- Any two rows of one port differ in a bit that both of them fix. -/
theorem opcodeTable_separated : ∀ r ∈ opcodeTable, ∀ r' ∈ opcodeTable,
    r.port = r'.port → r.bits &&& r'.mask = r'.bits &&& r.mask → r = r' := by
  decide

/-- Rows that cover one word fix their common bits alike, and so are one row. -/
theorem row_eq_of_covers {w : PortWord} {i j : Instr} (hi : i.row.covers w) (hj : j.row.covers w) : j.row = i.row := by
  obtain ⟨hporti, _, hbitsi⟩ := hi
  obtain ⟨hportj, _, hbitsj⟩ := hj
  refine opcodeTable_separated _ (row_mem_opcodeTable j) _ (row_mem_opcodeTable i) (hportj.symm.trans hporti) ?_
  rw [← hbitsi, ← hbitsj, Nat.and_right_comm]

theorem row_covers_encode (i : Instr) : i.row.covers (encode i) := by
  cases i with
  | lookup idx => exact Laws.WordFitsRow.lookup idx
  | evtPress k => exact Laws.WordFitsRow.evtPress k
  | evtRelease k => exact Laws.WordFitsRow.evtRelease k
  | enq v => exact Laws.WordFitsRow.enq v
  | deq => exact Laws.WordFitsRow.deq
  | openSession subOk => exact Laws.WordFitsRow.openSession subOk
  | read len copyOk => exact Laws.WordFitsRow.read len copyOk
  | write len => exact Laws.WordFitsRow.write len
  | close => exact Laws.WordFitsRow.close

/-- A row looks at the command word only, not at the side inputs. -/
theorem covers_c_congr {r : TableRow} {pins pins' : CPins} (hcmd : pins.cmd = pins'.cmd) (h : r.covers (.c pins)) :
    r.covers (.c pins') := by
  simpa [TableRow.covers, PortWord.number, PortWord.port, hcmd] using h

/-- A decoded word stands under the row of its operation, as the operation's own word does. -/
theorem row_covers_of_decode {w : PortWord} {i : Instr} (h : decode w = .ok i) : i.row.covers w := by
  have hcovers := row_covers_encode i
  cases w with
  | t idx =>
    cases h
    exact hcovers
  | p w =>
    cases h
    rwa [encode_decodeP] at hcovers
  | c pins =>
    obtain ⟨pins', hword, hcmd⟩ := encode_decodeC h
    rw [hword] at hcovers
    exact covers_c_congr hcmd hcovers

/-- Settles O5: the rows are separated, so the row a decoded word stands under is the only one. -/
theorem decodedWordStandsUnderExactlyItsRow : Obligations.DecodedWordStandsUnderExactlyItsRow :=
  fun _ _ h => ⟨row_covers_of_decode h, fun _ => row_eq_of_covers (row_covers_of_decode h)⟩

/-! ### Length widths (R5, R54) -/

/-- The length is all that either side checks, and an unread one is presented as 0. -/
theorem wellFormed_eq_fits_encode (lenw : Nat) (i : Instr) : i.wellFormed lenw = (encode i).fits lenw := by
  cases i with
  | read _ _ | write _ => rfl
  | lookup _ | evtPress _ | evtRelease _ | enq _ => rfl
  | deq | openSession _ | close => exact (lengthFits_zero lenw).symm

/-- A decoded operation has the length presented, or none. -/
theorem wellFormed_of_decode {lenw : Nat} {w : PortWord} {i : Instr} (hfits : w.fits lenw = true)
    (h : decode w = .ok i) : i.wellFormed lenw = true := by
  cases w with
  | t idx =>
    cases h
    rfl
  | p w =>
    cases h
    rwa [wellFormed_eq_fits_encode, encode_decodeP]
  | c pins =>
    rcases decodeC_eq_ok h with ⟨rfl, _⟩ | ⟨rfl, _⟩ | ⟨rfl, _⟩ | ⟨rfl, _⟩ | ⟨rfl, _⟩
    · rfl
    · rfl
    · exact hfits
    · exact hfits
    · rfl

/-- Settles O6: the well-formedness of an operation is the fitting of its word. -/
theorem decodingKeepsWellFormedness : Obligations.DecodingKeepsWellFormedness :=
  fun lenw => ⟨fun _ _ => wellFormed_of_decode, fun i => by rw [wellFormed_eq_fits_encode]⟩

/-- Settles O59: the numbers by evaluation; six statuses, six numbers. -/
theorem statusCodesAreDistinct : Obligations.StatusCodesAreDistinct := by
  refine ⟨rfl, fun a b hcode => ?_⟩
  cases a <;> cases b <;> simp [Status.code] at hcode ⊢

end Sys2Proof.Machine

/-! ## Proofs: what one port does in a step, and what it depends on (R35, R38) -/

namespace Sys2Proof.Machine

section
variable {aw : Nat} {T : Table} {b b' : Block aw}

/-- A block that has the `head` and slots of `b` is what port P joins to it by doing nothing to `b`. -/
theorem Block.merge_eq_right (hhead : b'.head = b.head) (hslot : b'.slot = b.slot) : Block.merge b b' = b' := by
  rw [Block.merge, ← hhead, ← hslot]

/-- A block that has the `tail` and `in_use` of `b` is what port C joins to it by doing nothing to `b`. -/
theorem Block.merge_eq_left (htail : b'.tail = b.tail) (hinUse : b'.inUse = b.inUse) : Block.merge b' b = b' := by
  rw [Block.merge, ← htail, ← hinUse]

theorem Block.merge_setInUse (htail : b'.tail = b.tail) (u : Bool) :
    Block.merge b' { b with inUse := u } = { b' with inUse := u } := by
  rw [Block.merge, ← htail]

/-! ### Port P -/

variable {seenTail seenTail' : BitVec aw}

/-- `tryEnqueue` depends on `head`, the slots and the outcome of its test. -/
theorem Block.tryEnqueue_congr (hhead : b'.head = b.head) (hslot : b'.slot = b.slot)
    (htest : nextIndex b.head = seenTail ↔ nextIndex b.head = seenTail') (v : Byte) :
    b'.tryEnqueue seenTail' v = (Block.merge (b.tryEnqueue seenTail v).1 b', (b.tryEnqueue seenTail v).2) := by
  by_cases hfull : nextIndex b.head = seenTail
  · rw [Block.tryEnqueue_of_full hfull, Block.tryEnqueue_of_full (hhead ▸ htest.1 hfull),
      Block.merge_eq_right hhead hslot]
  · rw [Block.tryEnqueue_of_room hfull, Block.tryEnqueue_of_room (hhead ▸ mt htest.2 hfull), Block.merge, hhead, hslot]

/-- An operation of port P depends on `head`, the slots, the session bit unless it is `ENQ`, and the outcome of its test,
if it makes one. -/
theorem Block.performSeeing_p_congr {seenHead seenHead' : BitVec aw} {i : Instr} (hi : i.port = .p)
    (hhead : b'.head = b.head) (hslot : b'.slot = b.slot) (hgate : b'.inUse = b.inUse ∨ ∃ v, i = .enq v)
    (htest : testsSpace b.inUse i = true → (nextIndex b.head = seenTail ↔ nextIndex b.head = seenTail')) :
    b'.performSeeing T seenTail' seenHead' i =
      (b.performSeeing T seenTail seenHead i).map fun r => (Block.merge r.1 b', r.2) := by
  have hidle : Block.merge b b' = b' := Block.merge_eq_right hhead hslot
  cases i with
  | enq v =>
    simp only [Block.performSeeing, Block.enq, Block.tryEnqueue_congr hhead hslot (htest rfl), Except.map]
  | evtPress k =>
    have hsession : b'.inUse = b.inUse := hgate.resolve_right nofun
    cases hinUse : b.inUse with
    | true =>
      simp only [Block.performSeeing, Block.evtPress, Block.whenSubscribed_open hinUse,
        Block.whenSubscribed_open (hsession.trans hinUse), Block.tryEnqueue_congr hhead hslot (htest hinUse),
        Except.map]
    | false =>
      simp only [Block.performSeeing, Block.evtPress, Block.whenSubscribed_closed hinUse,
        Block.whenSubscribed_closed (hsession.trans hinUse), Except.map, hidle]
  | evtRelease k =>
    have hsession : b'.inUse = b.inUse := hgate.resolve_right nofun
    cases hinUse : b.inUse with
    | true =>
      simp only [Block.performSeeing, Block.evtRelease, Block.whenSubscribed_open hinUse,
        Block.whenSubscribed_open (hsession.trans hinUse), Except.map, hidle]
    | false =>
      simp only [Block.performSeeing, Block.evtRelease, Block.whenSubscribed_closed hinUse,
        Block.whenSubscribed_closed (hsession.trans hinUse), Except.map, hidle]
  | lookup _ | deq | openSession _ | read _ _ | write _ | close => cases hi

/-- What is done to the block of a reply is done to the block of the step that holds the operation alone. -/
theorem Reply.alone_map (f : Block aw → Block aw) (r : Reply aw) :
    Reply.alone (r.map fun x => (f x.1, x.2)) = (Reply.alone r).map fun x => (f x.1, x.2) := by
  cases r <;> rfl

theorem Block.onP_congr {cmd : Option (BitVec 9)} (hhead : b'.head = b.head) (hslot : b'.slot = b.slot)
    (hgate : b'.inUse = b.inUse ∨ ∃ v, cmd.map decodeP = some (.enq v))
    (htest : ∀ w, cmd = some w → testsSpace b.inUse (decodeP w) = true →
      (nextIndex b.head = seenTail ↔ nextIndex b.head = seenTail')) :
    b'.onP T seenTail' cmd = (b.onP T seenTail cmd).map fun r => (Block.merge r.1 b', r.2) := by
  cases cmd with
  | none => simp only [Block.onP, Except.map, Block.merge_eq_right hhead hslot]
  | some w =>
    have hgate' : b'.inUse = b.inUse ∨ ∃ v, decodeP w = .enq v := by simpa using hgate
    simp only [Block.onP]
    rw [Block.performSeeing_p_congr (decodeP_port w) hhead hslot hgate' (htest w rfl)]
    exact Reply.alone_map (fun x => Block.merge x b') _

/-- Everything port P can do in a step, whatever it reads for `tail`: leave the block as it is with `p_ok` not raised,
or store one value. -/
theorem Block.onP_cases (T : Table) (seenTail : BitVec aw) (cmd : Option (BitVec 9)) (b : Block aw) :
    (∃ o, o.p.any (·.ok) = false ∧ b.onP T seenTail cmd = .ok (b, o)) ∨
    (∃ w v o, cmd = some w ∧ testsSpace b.inUse (decodeP w) = true ∧ nextIndex b.head ≠ seenTail ∧
      o.p.any (·.ok) = true ∧ b.onP T seenTail cmd = .ok (b.stored v, o)) := by
  cases cmd with
  | none => exact .inl ⟨_, rfl, rfl⟩
  | some w =>
    rcases b.performSeeing_p T seenTail b.head (decodeP w) (decodeP_port w) with
      ⟨r, hr, hreply⟩ | ⟨v, h, htests, hroom, hreply⟩
    · exact .inl ⟨{ StepOut.quiet with p := some r }, hr, by rw [Block.onP, hreply]; rfl⟩
    · exact .inr ⟨w, v, _, rfl, htests, hroom, rfl, by rw [Block.onP, hreply]; rfl⟩

/-! ### Port C -/

variable {seenHead seenHead' : BitVec aw}

/-- `tryDequeue` depends on `tail`, the outcome of its test, and the cell at `tail` if there is an item. -/
theorem Block.tryDequeue_congr (htail : b'.tail = b.tail) (hinUse : b'.inUse = b.inUse)
    (htest : seenHead = b.tail ↔ seenHead' = b.tail)
    (hread : seenHead ≠ b.tail → b'.slot.read b.tail.toNat = b.slot.read b.tail.toNat) :
    b'.tryDequeue seenHead' = (b.tryDequeue seenHead).map fun r => (Block.merge b' r.1, r.2) := by
  by_cases hempty : seenHead = b.tail
  · rw [Block.tryDequeue_of_empty hempty, Block.tryDequeue_of_empty (htail ▸ htest.1 hempty), Except.map,
      Block.merge_eq_left htail hinUse]
  · rw [Block.tryDequeue, Block.tryDequeue, if_pos hempty, htail, if_pos (mt htest.2 hempty), hread hempty]
    cases b.slot.read b.tail.toNat with
    | none => rfl
    | some v => simp only [Except.map, Block.merge, hinUse]

/-- An operation of port C depends on `tail`, the session bit, and, if it makes a dequeue test, the outcome of the test
and the cell at `tail`. -/
theorem Block.performSeeing_c_congr {i : Instr} (hi : i.port = .c)
    (htail : b'.tail = b.tail) (hinUse : b'.inUse = b.inUse)
    (htest : testsItems b.inUse i = true → (seenHead = b.tail ↔ seenHead' = b.tail) ∧
      (seenHead ≠ b.tail → b'.slot.read b.tail.toNat = b.slot.read b.tail.toNat)) :
    b'.performSeeing T seenTail' seenHead' i =
      (b.performSeeing T seenTail seenHead i).map fun r => (Block.merge b' r.1, r.2) := by
  have hidle : Block.merge b' b = b' := Block.merge_eq_left htail hinUse
  cases i with
  | deq =>
    obtain ⟨hhead, hread⟩ := htest rfl
    simp only [Block.performSeeing, Block.deq, Block.tryDequeue_congr htail hinUse hhead hread]
    cases b.tryDequeue seenHead <;> rfl
  | openSession subOk =>
    simp only [Block.performSeeing, Block.openSession, hinUse]
    cases b.inUse <;> cases subOk <;> simp [Except.map, hidle, Block.merge_setInUse htail]
  | read len copyOk =>
    cases hopen : b.inUse with
    | true =>
      obtain ⟨hhead, hread⟩ := htest hopen
      simp only [Block.performSeeing, Block.sessionRead, Block.whenOpen_open hopen,
        Block.whenOpen_open (hinUse.trans hopen), Block.tryDequeue_congr htail hinUse hhead hread]
      rcases b.tryDequeue seenHead with _ | ⟨_, _ | _⟩ <;> cases copyOk <;> rfl
    | false =>
      simp only [Block.performSeeing, Block.sessionRead, Block.whenOpen_closed hopen,
        Block.whenOpen_closed (hinUse.trans hopen), Except.map, hidle]
  | write len =>
    simp only [Block.performSeeing, Block.sessionWrite, Block.whenOpen, hinUse]
    cases b.inUse <;> simp [Except.map, hidle]
  | close =>
    simp only [Block.performSeeing, Block.close, Block.whenOpen, hinUse]
    cases b.inUse <;> simp [Except.map, hidle, Block.merge_setInUse htail]
  | lookup _ | evtPress _ | evtRelease _ | enq _ => cases hi

theorem Block.onC_congr {pins : Option CPins} (htail : b'.tail = b.tail) (hinUse : b'.inUse = b.inUse)
    (htest : ∀ w i, pins = some w → decodeC w = .ok i → testsItems b.inUse i = true →
      (seenHead = b.tail ↔ seenHead' = b.tail) ∧
      (seenHead ≠ b.tail → b'.slot.read b.tail.toNat = b.slot.read b.tail.toNat)) :
    b'.onC T seenHead' pins = (b.onC T seenHead pins).map fun r => (Block.merge b' r.1, r.2) := by
  have hidle : Block.merge b' b = b' := Block.merge_eq_left htail hinUse
  cases pins with
  | none => simp only [Block.onC, Except.map, hidle]
  | some w =>
    cases hdecode : decodeC w with
    | ok i =>
      simp only [Block.onC, hdecode]
      rw [Block.performSeeing_c_congr (decodeC_port hdecode) htail hinUse (htest w i rfl hdecode)]
      exact Reply.alone_map (Block.merge b') _
    | error _ => simp only [Block.onC, hdecode, Block.reservedCmd, Reply.alone, Except.map, hidle]

/-- Everything port C can do in a step, whatever it reads for `head`: change at most the session bit; take the item at
`tail`, delivering or losing it; or meet a cell without a value. -/
theorem Block.onC_cases (T : Table) (seenHead : BitVec aw) (pins : Option CPins) (b : Block aw) :
    (∃ u o, (u = b.inUse ∨ ∃ w, pins = some w ∧ (decodeC w = .ok (.openSession true) ∨ decodeC w = .ok .close)) ∧
      o.c.any (fun r => r.dvalid || r.status == .copyFault) = false ∧
      b.onC T seenHead pins = .ok ({ b with inUse := u }, o)) ∨
    (∃ w i v o, pins = some w ∧ decodeC w = .ok i ∧ testsItems b.inUse i = true ∧ seenHead ≠ b.tail ∧
      b.slot.read b.tail.toNat = some v ∧ o.c.any (fun r => r.dvalid || r.status == .copyFault) = true ∧
      b.onC T seenHead pins = .ok (b.taken, o)) ∨
    (∃ w i, pins = some w ∧ decodeC w = .ok i ∧ testsItems b.inUse i = true ∧ seenHead ≠ b.tail ∧
      b.slot.read b.tail.toNat = none ∧ b.onC T seenHead pins = .error (.unwrittenSlot b.tail.toNat)) := by
  cases pins with
  | none => exact .inl ⟨b.inUse, _, .inl rfl, rfl, rfl⟩
  | some w =>
    cases hdecode : decodeC w with
    | error _ => exact .inl ⟨b.inUse, _, .inl rfl, rfl, by rw [Block.onC, hdecode]; rfl⟩
    | ok i =>
      rcases b.performSeeing_c T b.tail seenHead i (decodeC_port hdecode) with
        ⟨u, r, hu, hdata, hstatus, hreply⟩ | ⟨v, r, htests, hitem, hread, hr, hreply⟩ | ⟨htests, hitem, hread, hreply⟩
      · refine .inl ⟨u, { StepOut.quiet with c := some r }, ?_, by simpa [CResult.dvalid, hdata] using hstatus,
          by simp only [Block.onC, hdecode, hreply]; rfl⟩
        rcases hu with hu | ⟨rfl, _, _⟩ | ⟨rfl, _, _⟩
        · exact .inl hu
        · exact .inr ⟨w, rfl, .inl hdecode⟩
        · exact .inr ⟨w, rfl, .inr hdecode⟩
      · refine .inr (.inl ⟨w, i, v, { StepOut.quiet with c := some r }, rfl, hdecode, htests, hitem, hread, ?_,
          by simp only [Block.onC, hdecode, hreply]; rfl⟩)
        rcases hr with ⟨hdata, _⟩ | ⟨_, hstatus⟩
        · simp [CResult.dvalid, hdata]
        · simp [hstatus]
      · exact .inr (.inr ⟨w, i, rfl, hdecode, htests, hitem, hread, by simp only [Block.onC, hdecode, hreply]; rfl⟩)

/-! ### Both ports -/

/-- A step is both ports at the start of the step, joined. -/
theorem Block.stepSeeing_eq (inp : StepInput) :
    b.stepSeeing T seenTail seenHead inp =
      (b.onP T seenTail inp.p).bind fun p => (b.onC T seenHead inp.c).map fun c =>
        (Block.merge p.1 c.1, { t := inp.t.map T, p := p.2.p, c := c.2.c }) := by
  unfold Block.stepSeeing
  cases b.onP T seenTail inp.p with
  | error _ => rfl
  | ok _ => cases b.onC T seenHead inp.c <;> rfl

/-! ### The sequential orders (R35, R36) -/

variable {inp : StepInput}

theorem Block.together_eq : b.together T inp =
    (b.onP T b.tail inp.p).bind fun p => (b.onC T b.head inp.c).map fun c => (Block.merge p.1 c.1, p.2.p, c.2.c) := by
  rw [Block.together, Block.step, Block.stepSeeing_eq]
  cases b.onP T b.tail inp.p with
  | error _ => rfl
  | ok _ => cases b.onC T b.head inp.c <;> rfl

theorem Block.step_pOnly : b.step T inp.pOnly =
    (b.onP T b.tail inp.p).map fun p => (Block.merge p.1 b, { t := [], p := p.2.p, c := none }) := by
  rw [Block.step, Block.stepSeeing_eq]
  rfl

theorem Block.step_cOnly : b.step T inp.cOnly =
    (b.onC T b.head inp.c).map fun c => (Block.merge b c.1, { t := [], p := none, c := c.2.c }) := by
  rw [Block.step, Block.stepSeeing_eq]
  rfl

theorem Block.onP_ok (T : Table) (seenTail : BitVec aw) (cmd : Option (BitVec 9)) (b : Block aw) :
    ∃ bp o, b.onP T seenTail cmd = .ok (bp, o) := by
  rcases b.onP_cases T seenTail cmd with ⟨o, _, hport⟩ | ⟨_, _, o, _, _, _, _, hport⟩
  · exact ⟨_, _, hport⟩
  · exact ⟨_, _, hport⟩

/-- Port P first is the same as both at once, if a dequeue test of port C comes out alike before and after port P, with
the same item. -/
theorem Block.together_eq_pFirst
    (htest : ∀ bp o, b.onP T b.tail inp.p = .ok (bp, o) → ∀ w i, inp.c = some w → decodeC w = .ok i →
      testsItems b.inUse i = true →
      (b.head = b.tail ↔ bp.head = b.tail) ∧
      (b.head ≠ b.tail → bp.slot.read b.tail.toNat = b.slot.read b.tail.toNat)) :
    b.together T inp = b.oneAfterTheOther T inp.pOnly inp.cOnly := by
  obtain ⟨bp, o, hp⟩ := b.onP_ok T b.tail inp.p
  have hsecond : (Block.merge bp b).onC T bp.head inp.c =
      (b.onC T b.head inp.c).map fun r => (Block.merge (Block.merge bp b) r.1, r.2) :=
    Block.onC_congr rfl rfl (htest bp o hp)
  rw [Block.together_eq, Block.oneAfterTheOther, Block.step_pOnly, hp]
  simp only [Except.map, Except.bind, Block.step_cOnly, Block.merge_head, hsecond]
  cases b.onC T b.head inp.c with
  | error _ => rfl
  | ok _ => simp [Block.merge]

/-- Port C first is the same as both at once, if what port P reads of the session and of `tail` decides alike before and
after port C. -/
theorem Block.together_eq_cFirst
    (htest : ∀ bc o, b.onC T b.head inp.c = .ok (bc, o) →
      (bc.inUse = b.inUse ∨ ∃ v, inp.p.map decodeP = some (.enq v)) ∧
      ∀ w, inp.p = some w → testsSpace b.inUse (decodeP w) = true →
        (nextIndex b.head = b.tail ↔ nextIndex b.head = bc.tail)) :
    b.together T inp = b.oneAfterTheOther T inp.cOnly inp.pOnly := by
  obtain ⟨bp, o, hp⟩ := b.onP_ok T b.tail inp.p
  rw [Block.together_eq, Block.oneAfterTheOther, Block.step_cOnly]
  cases hc : b.onC T b.head inp.c with
  | error _ => rw [hp]; rfl
  | ok r =>
    obtain ⟨bc, oc⟩ := r
    obtain ⟨hgate, hspace⟩ := htest bc oc hc
    have hsecond : (Block.merge b bc).onP T bc.tail inp.p =
        (b.onP T b.tail inp.p).map fun r => (Block.merge r.1 (Block.merge b bc), r.2) :=
      Block.onP_congr rfl rfl hgate hspace
    simp only [Except.map, Except.bind, Block.step_pOnly, Block.merge_tail, hsecond, hp]
    simp [Block.merge]

end

/-- Port C of a line that does not dequeue makes no dequeue test. -/
theorem testsItems_of_not_dequeues {inp : StepInput} {w : CPins} {i : Instr} {u : Bool} (h : inp.dequeues = false)
    (hpins : inp.c = some w) (hdecode : decodeC w = .ok i) : testsItems u i = false := by
  rcases decodeC_eq_ok hdecode with ⟨rfl, _⟩ | ⟨rfl, _⟩ | ⟨rfl, _⟩ | ⟨rfl, _⟩ | ⟨rfl, _⟩
  · simp [StepInput.dequeues, hpins, hdecode] at h
  · rfl
  · simp [StepInput.dequeues, hpins, hdecode] at h
  · rfl
  · rfl

section
variable {aw : Nat} {T : Table} {b bc : Block aw} {inp : StepInput} {o : StepOut}

/-- A dequeue leaves the session bit, and either leaves `tail` or takes an item. -/
theorem Block.onC_of_dequeues (h : inp.dequeues = true) (hc : b.onC T b.head inp.c = .ok (bc, o)) :
    bc = b ∨ b.head ≠ b.tail ∧ bc = b.taken := by
  rcases b.onC_cases T b.head inp.c with ⟨u, _, hu, _, hport⟩ | ⟨_, _, _, _, _, _, _, hitem, _, _, hport⟩ |
    ⟨_, _, _, _, _, _, _, hport⟩
  · cases hport.symm.trans hc
    rcases hu with rfl | ⟨w, hpins, hdecode | hdecode⟩
    · exact .inl rfl
    · simp [StepInput.dequeues, hpins, hdecode] at h
    · simp [StepInput.dequeues, hpins, hdecode] at h
  · cases hport.symm.trans hc
    exact .inr ⟨hitem, rfl⟩
  · cases hport.symm.trans hc

/-- Port C that does not dequeue leaves `tail`. -/
theorem Block.onC_of_not_dequeues (h : inp.dequeues = false) (hc : b.onC T b.head inp.c = .ok (bc, o)) :
    bc.tail = b.tail := by
  rcases b.onC_cases T b.head inp.c with ⟨u, _, _, _, hport⟩ | ⟨w, i, _, _, hpins, hdecode, htests, _⟩ |
    ⟨_, _, _, _, _, _, _, hport⟩
  · cases hport.symm.trans hc
    rfl
  · cases htests.symm.trans (testsItems_of_not_dequeues h hpins hdecode)
  · cases hport.symm.trans hc

/-- Port P leaves a buffer with an item with that item at its front. -/
theorem Block.onP_keeps_oldest (hne : b.head ≠ b.tail) (hp : b.onP T b.tail inp.p = .ok (bc, o)) :
    bc.head ≠ b.tail ∧ bc.slot.read b.tail.toNat = b.slot.read b.tail.toNat := by
  rcases b.onP_cases T b.tail inp.p with ⟨_, _, hport⟩ | ⟨_, v, _, _, _, hroom, _, hport⟩
  · cases hport.symm.trans hp
    exact ⟨hne, rfl⟩
  · cases hport.symm.trans hp
    exact ⟨hroom, Memory.read_write_other _ v fun h => hne (BitVec.eq_of_toNat_eq h.symm)⟩

theorem nextIndex_injective {x y : BitVec aw} (h : nextIndex x = nextIndex y) : x = y := by
  have := congrArg (· - 1#aw) h
  simpa [nextIndex, BitVec.add_sub_cancel] using this

/-- A buffer with an item has a depth of at least 2. -/
theorem Block.width_pos_of_item (hne : b.head ≠ b.tail) : 1 ≤ aw := by
  rcases Nat.eq_zero_or_pos aw with rfl | hpos
  · exact absurd (Subsingleton.elim _ _) hne
  · exact hpos

end

/-- Settles O42: port P first, since it leaves the oldest item and a dequeue test as they were unless the buffer is
empty; port C first, since what it changes is what port P's operation does not read, or decides port P's test alike. -/
theorem sameStepEqualsASequentialOrder : Obligations.SameStepEqualsASequentialOrder := by
  intro aw T inp b
  refine ⟨fun hempty hdeq => ?emptyDequeue, fun hor => ?pFirst, fun hempty hfull hdeq => ?middle,
    fun b' o' hstep hu hdeq => ?sameSession, fun v henq hdeq => ?enq, fun b' o' hstep hu hspace => ?noTest⟩
  case emptyDequeue =>
    refine Block.together_eq_cFirst fun bc o hc => ?_
    obtain rfl : bc = b := (Block.onC_of_dequeues hdeq hc).resolve_right fun h => h.1 (b.empty_iff.1 hempty)
    exact ⟨.inl rfl, fun _ _ _ => Iff.rfl⟩
  case pFirst =>
    refine Block.together_eq_pFirst fun bp o hp w i hpins hdecode htests => ?_
    have hne : b.head ≠ b.tail := by
      rcases hor with hempty | hdeq
      · exact fun he => by rw [b.empty_iff.2 he] at hempty; cases hempty
      · cases (testsItems_of_not_dequeues hdeq hpins hdecode).symm.trans htests
    obtain ⟨hhead, hread⟩ := Block.onP_keeps_oldest hne hp
    exact ⟨iff_of_false hne hhead, fun _ => hread⟩
  case middle =>
    refine Block.together_eq_cFirst fun bc o hc => ?_
    rcases Block.onC_of_dequeues hdeq hc with rfl | ⟨hne, rfl⟩
    · exact ⟨.inl rfl, fun _ _ _ => Iff.rfl⟩
    · have hroom : nextIndex b.head ≠ b.tail := fun he => by
        rw [b.full_iff.2 ((nextIndex_eq_iff_count (Block.width_pos_of_item hne)).1 he)] at hfull
        cases hfull
      exact ⟨.inl rfl, fun _ _ _ => iff_of_false hroom fun he => hne (nextIndex_injective he)⟩
  case sameSession =>
    refine Block.together_eq_cFirst fun bc o hc => ⟨.inl ?_, fun _ _ _ => by rw [Block.onC_of_not_dequeues hdeq hc]⟩
    rw [Block.step_cOnly, hc] at hstep
    cases hstep
    exact hu
  case enq =>
    exact Block.together_eq_cFirst fun bc o hc =>
      ⟨.inr ⟨v, henq⟩, fun _ _ _ => by rw [Block.onC_of_not_dequeues hdeq hc]⟩
  case noTest =>
    refine Block.together_eq_cFirst fun bc o hc => ⟨.inl ?_, fun w hw htests => ?_⟩
    · rw [Block.step_cOnly, hc] at hstep
      cases hstep
      exact hu
    · cases (hspace w hw).symm.trans htests

end Sys2Proof.Machine

/-! ## Proofs: the block is a bounded queue (R18, R35, R78) -/

namespace Sys2Proof.Machine

section
variable {aw : Nat}

/-- The block after enqueues that all find room. -/
def Block.storeEach (b : Block aw) (vs : List Byte) : Block aw := vs.foldl Block.stored b

/-- The block after `n` dequeues that all find an item. -/
def Block.takeEach (b : Block aw) (n : Nat) : Block aw := Block.taken^[n] b

/-! ### Port P against the queue -/

variable {T : Table} {b : Block aw} {q : Fifo} {room : Nat} {seenTail seenHead : BitVec aw}

theorem Fifo.offer_cases (q : Fifo) (room : Nat) (v : Byte) :
    (q.items.length < room ∧ q.offer room v = [v]) ∨ (¬ q.items.length < room ∧ q.offer room v = []) := by
  by_cases h : q.items.length < room
  · exact .inl ⟨h, if_pos h⟩
  · exact .inr ⟨h, if_neg h⟩

theorem Block.tryEnqueue_eq_offer (hroom : q.items.length < room ↔ nextIndex b.head ≠ seenTail) (v : Byte) :
    b.tryEnqueue seenTail v = (b.storeEach (q.offer room v), !(q.offer room v).isEmpty) := by
  rcases q.offer_cases room v with ⟨h, e⟩ | ⟨h, e⟩
  · rw [e, Block.tryEnqueue_of_room (hroom.1 h)]
    rfl
  · rw [e, Block.tryEnqueue_of_full (not_not.1 (mt hroom.2 h))]
    rfl

/-- Port P does to the block what it does to a queue with the same session bit and the same test of space. -/
theorem Block.onP_eq_fifo (hinUse : q.inUse = b.inUse) (hroom : q.items.length < room ↔ nextIndex b.head ≠ seenTail)
    (cmd : Option (BitVec 9)) : b.onP T seenTail cmd =
      .ok (b.storeEach (q.onP T room cmd).1, { StepOut.quiet with p := (q.onP T room cmd).2 }) := by
  cases cmd with
  | none => rfl
  | some w =>
    have hport := decodeP_port w
    cases hdecode : decodeP w with
    | enq v =>
      simp only [Block.onP, Fifo.onP, hdecode, Block.performSeeing, Block.enq, Block.tryEnqueue_eq_offer hroom]
      rfl
    | evtPress k =>
      cases hopen : b.inUse <;>
        simp only [Block.onP, Fifo.onP, hdecode, Block.performSeeing, Block.evtPress, Block.whenSubscribed,
          hinUse.trans hopen, hopen, tableIndex_pressByte, Block.tryEnqueue_eq_offer hroom] <;>
        rfl
    | evtRelease k =>
      cases hopen : b.inUse <;>
        simp only [Block.onP, Fifo.onP, hdecode, Block.performSeeing, Block.evtRelease, Block.whenSubscribed,
          hinUse.trans hopen, hopen] <;>
        rfl
    | lookup _ | deq | openSession _ | read _ _ | write _ | close =>
      rw [hdecode] at hport
      cases hport

/-- Port P adds nothing, or one item to a queue that has room. -/
theorem Fifo.onP_added (T : Table) (room : Nat) (q : Fifo) (cmd : Option (BitVec 9)) :
    (q.onP T room cmd).1 = [] ∨ ∃ v, (q.onP T room cmd).1 = [v] ∧ q.items.length < room := by
  cases cmd with
  | none => exact .inl rfl
  | some w =>
    cases hdecode : decodeP w with
    | enq v =>
      simp only [Fifo.onP, hdecode]
      rcases q.offer_cases room v with ⟨h, e⟩ | ⟨_, e⟩
      · exact .inr ⟨v, e, h⟩
      · exact .inl e
    | evtPress k =>
      cases hopen : q.inUse with
      | true =>
        simp only [Fifo.onP, hdecode, hopen, if_true]
        rcases q.offer_cases room (T (k.setWidth 9)) with ⟨h, e⟩ | ⟨_, e⟩
        · exact .inr ⟨_, e, h⟩
        · exact .inl e
      | false => exact .inl (by simp [Fifo.onP, hdecode, hopen])
    | evtRelease _ | lookup _ | deq | openSession _ | read _ _ | write _ | close =>
      exact .inl (by simp only [Fifo.onP, hdecode])

/-! ### Port C against the queue -/

/-- Port C does to the block what it does to a queue with the same session bit and the same outcome of a dequeue. -/
theorem Block.onC_eq_fifo (hinUse : q.inUse = b.inUse)
    (hdeq : b.tryDequeue seenHead = .ok (b.takeEach q.items.head?.toList.length, q.items.head?))
    (pins : Option CPins) : b.onC T seenHead pins =
      .ok ({ b.takeEach (q.onC pins).1 with inUse := (q.onC pins).2.1 },
        { StepOut.quiet with c := (q.onC pins).2.2 }) := by
  cases pins with
  | none => rw [Fifo.onC, hinUse]; rfl
  | some w =>
    rcases decodeC_cases w with ⟨hdecode, _⟩ | ⟨hdecode, _⟩ | ⟨hdecode, _⟩ | ⟨hdecode, _⟩ | ⟨hdecode, _⟩ | ⟨hdecode, _⟩
    · simp only [Block.onC, Fifo.onC, hdecode, Block.performSeeing, Block.deq, hdeq, hinUse]
      cases q.items.head? <;> rfl
    · obtain ⟨head, tail, slot, inUse⟩ := b
      simp only [Block.onC, Fifo.onC, hdecode, Block.performSeeing, Block.openSession, hinUse]
      cases inUse <;> cases w.subOk <;> rfl
    · obtain ⟨head, tail, slot, inUse⟩ := b
      simp only [Block.onC, Fifo.onC, hdecode, Block.performSeeing, Block.sessionRead, Block.whenOpen, hinUse, hdeq]
      cases inUse
      · rfl
      · cases q.items <;> cases w.copyOk <;> rfl
    · obtain ⟨head, tail, slot, inUse⟩ := b
      simp only [Block.onC, Fifo.onC, hdecode, Block.performSeeing, Block.sessionWrite, Block.whenOpen, hinUse]
      cases inUse <;> rfl
    · obtain ⟨head, tail, slot, inUse⟩ := b
      simp only [Block.onC, Fifo.onC, hdecode, Block.performSeeing, Block.close, Block.whenOpen, hinUse]
      cases inUse <;> rfl
    · simp only [Block.onC, Fifo.onC, hdecode, Block.reservedCmd, hinUse]
      rfl

/-- Port C of the queue takes nothing and delivers nothing, or it takes the first item and delivers or loses it. -/
theorem Fifo.onC_taken (q : Fifo) (pins : Option CPins) :
    ((q.onC pins).1 = 0 ∧ (q.onC pins).2.2.bind (·.data) = none ∧
      (q.onC pins).2.2.any (·.status == .copyFault) = false) ∨
    ∃ v, q.items.head? = some v ∧ (q.onC pins).1 = 1 ∧
      ((q.onC pins).2.2.bind (·.data) = some v ∧ (q.onC pins).2.2.any (·.status == .copyFault) = false ∨
       (q.onC pins).2.2.bind (·.data) = none ∧ (q.onC pins).2.2.any (·.status == .copyFault) = true) := by
  cases pins with
  | none => exact .inl ⟨rfl, rfl, rfl⟩
  | some w =>
    rcases decodeC_cases w with ⟨hdecode, _⟩ | ⟨hdecode, _⟩ | ⟨hdecode, _⟩ | ⟨hdecode, _⟩ | ⟨hdecode, _⟩ | ⟨hdecode, _⟩
      <;> simp only [Fifo.onC, hdecode]
    · cases q.items <;> simp
    · cases q.inUse <;> cases w.subOk <;> simp [CResult.error]
    · cases q.inUse <;> cases q.items <;> cases w.copyOk <;> simp [CResult.error]
    · cases q.inUse <;> simp [CResult.error]
    · cases q.inUse <;> simp [CResult.error]
    · simp [CResult.error]

/-! ### The contents of the block -/

theorem Block.Inv.room_iff (hw : 1 ≤ aw) (hinv : b.Inv) :
    b.toFifo.items.length < depth aw - 1 ↔ nextIndex b.head ≠ b.tail := by
  have hlen : b.toFifo.items.length = b.count := hinv.queue_length
  have := b.count_lt_depth
  rw [hlen, Ne, nextIndex_eq_iff_count hw]
  omega

/-- Under the invariant a dequeue gives the front of the queue. -/
theorem Block.Inv.tryDequeue_eq_front (hinv : b.Inv) :
    b.tryDequeue b.head = .ok (b.takeEach b.queue.head?.toList.length, b.queue.head?) := by
  by_cases hempty : b.head = b.tail
  · rw [Block.tryDequeue_of_empty hempty, Block.queue_of_empty (b.empty_iff.2 hempty)]
    rfl
  · obtain ⟨v, hread⟩ := hinv.read_tail hempty
    rw [Block.tryDequeue_of_item hempty hread, Block.queue_taken hempty hread]
    rfl

/-- An item at the front of the queue means that the buffer is not empty. -/
theorem Block.head_ne_tail_of_front {v : Byte} (h : b.queue.head? = some v) : b.head ≠ b.tail := by
  intro he
  rw [Block.queue_of_empty (b.empty_iff.2 he)] at h
  cases h

/-- Dequeues that the queue allows keep the invariant and the room, and drop from the front. -/
theorem Block.Inv.takeEach (hw : 1 ≤ aw) (hinv : b.Inv) {n : Nat}
    (hn : n = 0 ∨ n = 1 ∧ b.head ≠ b.tail) :
    (b.takeEach n).Inv ∧ (b.takeEach n).queue = b.queue.drop n ∧
      (nextIndex b.head ≠ b.tail → nextIndex (b.takeEach n).head ≠ (b.takeEach n).tail) := by
  rcases hn with rfl | ⟨rfl, hne⟩
  · exact ⟨hinv, rfl, id⟩
  · obtain ⟨v, hread⟩ := hinv.read_tail hne
    exact ⟨hinv.taken hne, by rw [Block.queue_taken hne hread]; rfl, fun _ => Block.taken_room hw hne⟩

/-- An enqueue that finds room keeps the invariant and adds at the back. -/
theorem Block.Inv.storeEach (hinv : b.Inv) {vs : List Byte}
    (hvs : vs = [] ∨ ∃ v, vs = [v] ∧ nextIndex b.head ≠ b.tail) :
    (b.storeEach vs).Inv ∧ (b.storeEach vs).queue = b.queue ++ vs := by
  rcases hvs with rfl | ⟨v, rfl, hroom⟩
  · exact ⟨hinv, (List.append_nil _).symm⟩
  · exact ⟨hinv.stored v hroom, Block.queue_stored hroom⟩

/-- What the ports do beside each other, joined, is what they do one after the other. -/
theorem Block.merge_storeEach_takeEach {vs : List Byte} {n : Nat} (hvs : vs = [] ∨ ∃ v, vs = [v]) (hn : n = 0 ∨ n = 1)
    (u : Bool) : Block.merge (b.storeEach vs) { b.takeEach n with inUse := u } =
      { (b.takeEach n).storeEach vs with inUse := u } := by
  rcases hvs with rfl | ⟨v, rfl⟩ <;> rcases hn with rfl | rfl <;> rfl

/-- One step of the block is one step of the bounded queue on its contents. -/
theorem Block.Inv.step_eq_fifo (hw : 1 ≤ aw) (hinv : b.Inv) (T : Table) (inp : StepInput) :
    ∃ b' o, b.step T inp = .ok (b', o) ∧ b'.Inv ∧ b.toFifo.step T (depth aw - 1) inp = (b'.toFifo, o) := by
  have hp := Block.onP_eq_fifo (q := b.toFifo) (T := T) rfl (hinv.room_iff hw) inp.p
  have hc := Block.onC_eq_fifo (q := b.toFifo) (T := T) rfl hinv.tryDequeue_eq_front inp.c
  have hadded := b.toFifo.onP_added T (depth aw - 1) inp.p
  have htaken : (b.toFifo.onC inp.c).1 = 0 ∨ (b.toFifo.onC inp.c).1 = 1 ∧ b.head ≠ b.tail :=
    (b.toFifo.onC_taken inp.c).imp (·.1) fun ⟨_, hfront, hone, _⟩ => ⟨hone, Block.head_ne_tail_of_front hfront⟩
  obtain ⟨hinvC, hqueueC, hroomC⟩ := hinv.takeEach hw htaken
  obtain ⟨hinvP, hqueueP⟩ := hinvC.storeEach
    (hadded.imp_right fun ⟨v, hv, hlt⟩ => ⟨v, hv, hroomC ((hinv.room_iff hw).1 hlt)⟩)
  have hjoin := Block.merge_storeEach_takeEach (b := b) (hadded.imp_right fun ⟨v, hv, _⟩ => ⟨v, hv⟩)
    (htaken.imp_right And.left) (b.toFifo.onC inp.c).2.1
  refine ⟨_, _, by rw [Block.step, Block.stepSeeing_eq, hp, hc, Except.bind, Except.map, hjoin], hinvP.setInUse _, ?_⟩
  simp only [Fifo.step, Block.toFifo, Prod.mk.injEq, Fifo.mk.injEq, and_true]
  exact ((congrArg (· ++ _) hqueueC).symm.trans hqueueP.symm)

end

/-- Settles O50: each port does to the contents what it does to the queue, and the two effects join. -/
theorem blockRefinesTheBoundedQueue : Obligations.BlockRefinesTheBoundedQueue := by
  intro aw T inp b hlegal hinv
  obtain ⟨b', o, hstep, hinv', hfifo⟩ := hinv.step_eq_fifo (legalWidth_iff.1 hlegal) T inp
  exact ⟨b', o, hstep, hinv', hinv'.queue_length, hfifo⟩

/-- Settles O51, by induction on the lines. -/
theorem runsOfTheBlockAreRunsOfTheQueue : Obligations.RunsOfTheBlockAreRunsOfTheQueue := by
  intro aw T inps b hlegal hinv
  induction inps generalizing b with
  | nil => exact ⟨b, [], rfl, hinv, rfl⟩
  | cons inp rest ih =>
    obtain ⟨b', o, hstep, hinv', hfifo⟩ := hinv.step_eq_fifo (legalWidth_iff.1 hlegal) T inp
    obtain ⟨b'', os, hrun, hinv'', hfifoRun⟩ := ih b' hinv'
    refine ⟨b'', o :: os, Block.run_cons hstep hrun, hinv'', ?_⟩
    rw [Fifo.run, hfifo, hfifoRun]

/-- Settles O55: both runs are the run of the one queue. -/
theorem behaviourDoesNotDependOnPosition : Obligations.BehaviourDoesNotDependOnPosition := by
  intro aw T inps b₁ b₂ hlegal hinv₁ hinv₂ hsame
  obtain ⟨c₁, os₁, hrun₁, _, hfifo₁⟩ := runsOfTheBlockAreRunsOfTheQueue aw T inps b₁ hlegal hinv₁
  obtain ⟨c₂, os₂, hrun₂, _, hfifo₂⟩ := runsOfTheBlockAreRunsOfTheQueue aw T inps b₂ hlegal hinv₂
  rw [hsame, hfifo₂] at hfifo₁
  obtain ⟨hcontents, rfl⟩ := Prod.mk.inj hfifo₁
  exact ⟨c₁, c₂, os₂, hrun₁, hrun₂, hcontents.symm⟩

/-! ### Runs of the queue (R78) -/

section
variable {T : Table} {room : Nat} {q : Fifo}

/-- What a step's answer says was stored is what port P added. -/
theorem Fifo.storedBy_step (inp : StepInput) :
    storedBy T inp (q.step T room inp).2 = (q.onP T room inp.p).1 := by
  cases hp : inp.p with
  | none => simp only [storedBy, hp, Fifo.onP]
  | some w =>
    cases hdecode : decodeP w with
    | enq v =>
      rcases q.offer_cases room v with ⟨_, e⟩ | ⟨_, e⟩ <;> simp [storedBy, Fifo.step, Fifo.onP, hp, hdecode, e]
    | evtPress k =>
      cases hopen : q.inUse
      · simp [storedBy, Fifo.step, Fifo.onP, hp, hdecode, hopen]
      · rcases q.offer_cases room (T (k.setWidth 9)) with ⟨_, e⟩ | ⟨_, e⟩ <;>
          simp [storedBy, Fifo.step, Fifo.onP, hp, hdecode, hopen, e]
    | evtRelease _ | lookup _ | deq | openSession _ | read _ _ | write _ | close =>
      simp [storedBy, Fifo.step, Fifo.onP, hp, hdecode]

/-- A step that loses no item delivers what it takes. -/
theorem Fifo.deliveredBy_step {inp : StepInput} (h : lostItem (q.step T room inp).2 = false) :
    deliveredBy (q.step T room inp).2 = q.items.take (q.onC inp.c).1 := by
  rcases q.onC_taken inp.c with ⟨hn, hdata, _⟩ | ⟨v, hfront, hn, ⟨hdata, _⟩ | ⟨_, hlost⟩⟩
  · rw [deliveredBy, Fifo.step, hdata, hn]
    rfl
  · rw [deliveredBy, Fifo.step, hdata, hn]
    cases hitems : q.items <;> simp [hitems] at hfront ⊢
    exact hfront.symm
  · cases h.symm.trans hlost

theorem takenIn_cons (o : StepOut) (os : List StepOut) :
    takenIn (o :: os) = ((deliveredBy o).length == 1 || lostItem o).toNat + takenIn os := by
  cases h : (deliveredBy o).length == 1 || lostItem o with
  | true => simp only [takenIn, List.filter_cons, h, if_true, List.length_cons, Bool.toNat_true, Nat.add_comm]
  | false => simp only [takenIn, List.filter_cons, h, Bool.false_eq_true, if_false, Bool.toNat_false, Nat.zero_add]

/-- A step takes an item, one that is there, exactly when its answer delivers one or reports one lost. -/
theorem Fifo.onC_fst_eq (inp : StepInput) :
    (q.onC inp.c).1 = ((deliveredBy (q.step T room inp).2).length == 1 || lostItem (q.step T room inp).2).toNat ∧
      (q.onC inp.c).1 ≤ q.items.length := by
  rcases q.onC_taken inp.c with ⟨hn, hdata, hkept⟩ | ⟨v, hfront, hn, ⟨hdata, _⟩ | ⟨hdata, hlost⟩⟩
  · rw [deliveredBy, lostItem, Fifo.step, hdata, hkept, hn]
    exact ⟨rfl, Nat.zero_le _⟩
  · rw [deliveredBy, Fifo.step, hdata, hn]
    exact ⟨rfl, List.length_pos_of_ne_nil fun h => by rw [h] at hfront; cases hfront⟩
  · rw [deliveredBy, lostItem, Fifo.step, hdata, hlost, hn]
    exact ⟨rfl, List.length_pos_of_ne_nil fun h => by rw [h] at hfront; cases hfront⟩

/-- R78 for the queue: its items at the start, then those added, are those delivered, then those at the end. -/
theorem Fifo.run_order (inps : List StepInput) (q : Fifo) (h : ∀ o ∈ (q.run T room inps).2, lostItem o = false) :
    q.items ++ storedIn T inps (q.run T room inps).2 =
      deliveredIn (q.run T room inps).2 ++ (q.run T room inps).1.items := by
  induction inps generalizing q with
  | nil => exact List.append_nil _
  | cons inp rest ih =>
    obtain ⟨hkept, hrest⟩ := List.forall_mem_cons.1 h
    have hnext := ih _ hrest
    have hitems : (q.step T room inp).1.items = q.items.drop (q.onC inp.c).1 ++ (q.onP T room inp.p).1 := rfl
    calc q.items ++ storedIn T (inp :: rest) (q.run T room (inp :: rest)).2
        = q.items ++ ((q.onP T room inp.p).1 ++ storedIn T rest ((q.step T room inp).1.run T room rest).2) := by
          rw [← Fifo.storedBy_step]; rfl
      _ = q.items.take (q.onC inp.c).1 ++ ((q.step T room inp).1.items ++
            storedIn T rest ((q.step T room inp).1.run T room rest).2) := by
          rw [hitems, List.append_assoc, ← List.append_assoc (q.items.take _), List.take_append_drop]
      _ = _ := by rw [hnext, ← Fifo.deliveredBy_step hkept, ← List.append_assoc]; rfl

/-- The count law for the queue. -/
theorem Fifo.run_count (inps : List StepInput) (q : Fifo) :
    q.items.length + (storedIn T inps (q.run T room inps).2).length =
      (q.run T room inps).1.items.length + takenIn (q.run T room inps).2 := by
  induction inps generalizing q with
  | nil => rfl
  | cons inp rest ih =>
    obtain ⟨htakes, hle⟩ := Fifo.onC_fst_eq (T := T) (room := room) (q := q) inp
    have hnext := ih (q.step T room inp).1
    have hitems : (q.step T room inp).1.items.length =
        q.items.length - (q.onC inp.c).1 + (q.onP T room inp.p).1.length := by
      rw [← List.length_drop, ← List.length_append]; rfl
    have hstored : (storedIn T (inp :: rest) (q.run T room (inp :: rest)).2).length =
        (q.onP T room inp.p).1.length + (storedIn T rest ((q.step T room inp).1.run T room rest).2).length := by
      rw [← List.length_append, ← Fifo.storedBy_step]; rfl
    have htaken : takenIn (q.run T room (inp :: rest)).2 =
        (q.onC inp.c).1 + takenIn ((q.step T room inp).1.run T room rest).2 := by
      rw [htakes, ← takenIn_cons]; rfl
    have hend : (q.run T room (inp :: rest)).1 = ((q.step T room inp).1.run T room rest).1 := rfl
    rw [hend]
    omega

end

/-- A run of the block answers as the queue does and ends with its contents. -/
theorem Block.Inv.run_eq_fifo {aw : Nat} {T : Table} {inps : List StepInput} {b b' : Block aw} {os : List StepOut}
    (hlegal : legalWidth aw = true) (hinv : b.Inv) (hrun : b.run T inps = .ok (b', os)) :
    b'.Inv ∧ b.toFifo.run T (depth aw - 1) inps = (b'.toFifo, os) := by
  obtain ⟨_, _, hrun', hinv', hfifo⟩ := runsOfTheBlockAreRunsOfTheQueue aw T inps b hlegal hinv
  cases hrun'.symm.trans hrun
  exact ⟨hinv', hfifo⟩

/-- Settles O52: the order law of the queue, on the contents of the block. -/
theorem itemsAreDeliveredInArrivalOrder : Obligations.ItemsAreDeliveredInArrivalOrder := by
  intro aw T inps b b' os hlegal hinv hrun hkept
  obtain ⟨_, hfifo⟩ := hinv.run_eq_fifo hlegal hrun
  have horder := Fifo.run_order (T := T) (room := depth aw - 1) inps b.toFifo (by rwa [hfifo])
  rwa [hfifo] at horder

/-- Settles O53: the count law of the queue, whose length is the count of the block. -/
theorem storedLessTakenIsTheChangeOfCount : Obligations.StoredLessTakenIsTheChangeOfCount := by
  intro aw T inps b b' os hlegal hinv hrun
  obtain ⟨hinv', hfifo⟩ := hinv.run_eq_fifo hlegal hrun
  have hcount := Fifo.run_count (T := T) (room := depth aw - 1) inps b.toFifo
  rw [hfifo] at hcount
  refine ⟨?_, Nat.le_sub_one_of_lt b'.count_lt_depth⟩
  rw [← hinv.queue_length, ← hinv'.queue_length]
  exact hcount

end Sys2Proof.Machine

/-! ## Proofs: the step of the machine (R8, R35, R60) -/

namespace Sys2Proof.Machine

section
variable {s t sp sc : State} {i : Instr} {line : StepInput} {rest : List StepInput}

/-- Nothing follows an outcome whose next state is handed on as it is. -/
theorem andThen_eq_self {o : Host.Outcome State Fault Refusal} {k : State → Host.Outcome State Fault Refusal}
    (h : ∀ t, o = .next t → k t = .next t) : andThen o k = o := by
  cases o with
  | next t => exact h t rfl
  | fault _ => rfl
  | refused _ => rfl

/-- After an operation of port P the machine differs from before in what port P owns (R38). -/
theorem exec_p_owned (hi : i.port = .p) (h : exec i s = .next t) :
    { s with toBlock := Block.merge t.toBlock s.toBlock, out := { s.out with p := t.out.p } } = t := by
  obtain ⟨b', a, hreply, rfl⟩ := exec_eq_next h
  rcases s.toBlock.performSeeing_p Config.table s.tail s.head i hi with ⟨_, _, dropped⟩ | ⟨_, _, _, _, stored⟩
  · cases dropped.symm.trans hreply
    rfl
  · cases stored.symm.trans hreply
    rfl

/-- After an operation of port C the machine differs from before in what port C owns (R38). -/
theorem exec_c_owned (hi : i.port = .c) (h : exec i s = .next t) :
    { s with toBlock := Block.merge s.toBlock t.toBlock, out := { s.out with c := t.out.c } } = t := by
  obtain ⟨b', a, hreply, rfl⟩ := exec_eq_next h
  rcases s.toBlock.performSeeing_c Config.table s.tail s.head i hi with
    ⟨_, _, _, _, _, answered⟩ | ⟨_, _, _, _, _, _, taken⟩ | ⟨_, _, _, unwritten⟩
  · cases answered.symm.trans hreply
    rfl
  · cases taken.symm.trans hreply
    rfl
  · cases unwritten.symm.trans hreply

theorem step_of_script (hscript : s.script = line :: rest) : step s = runPorts line (s.beginStep rest) := by
  rw [step, stepScript, hscript]

theorem step_of_empty_script (hscript : s.script = []) : step s = .next (s.beginStep []) := by
  rw [step, stepScript, hscript]

/-- A step on which neither port stops joins what the two ports give. -/
theorem step_of_ports (hscript : s.script = line :: rest) (hp : presentP line.p (s.beginStep rest) = .next sp)
    (hc : presentC line.c (s.beginStep rest) = .next sc) :
    step s = .next {
      toBlock := Block.merge sp.toBlock sc.toBlock, script := rest
      out := { t := line.t.map Config.table, p := sp.out.p, c := sc.out.c } } := by
  rw [step_of_script hscript, runPorts, presentT_eq, hp, hc]
  rfl

/-- A reserved code answers and leaves all else (R60). -/
theorem presentC_of_reserved {pins : CPins} (h : 5 ≤ pins.cmd.toNat) :
    presentC (some pins) s = .next { s with out := { s.out with c := some ⟨.illegalCmd, 0, none⟩ } } := by
  simp only [presentC, decodeC_of_reserved h]
  rfl

end

/-- Settles O35: the port that is presented nothing keeps what it owns, so the operation's own next state is that of
the step. -/
theorem stepRunsTheDecodedOperation : Obligations.StepRunsTheDecodedOperation := by
  intro s w i rest hscript hdecode
  rw [step_of_script hscript]
  cases w with
  | t idx =>
    cases hdecode
    rfl
  | p w =>
    cases hdecode
    exact andThen_eq_self fun t ht => congrArg Host.Outcome.next (exec_p_owned (decodeP_port w) ht)
  | c pins =>
    have hdecode : decodeC pins = .ok i := hdecode
    have hport : presentC (some pins) (s.beginStep rest) = exec i (s.beginStep rest) := by
      simp only [presentC, hdecode]
    show andThen (presentC (some pins) (s.beginStep rest)) _ = _
    rw [hport]
    exact andThen_eq_self fun t ht => congrArg Host.Outcome.next (exec_c_owned (decodeC_port hdecode) ht)

/-- Settles O36: the word of a table row is presented alone on the next line. -/
theorem placedTableWordRunsNext : Obligations.PlacedTableWordRunsNext := by
  intro s nbits w i hdecode
  rw [decodeTableWord] at hdecode
  rw [State.withFetchWord, State.presentTableWord]
  cases hword : wordOfTable nbits w with
  | error _ =>
    rw [hword] at hdecode
    cases hdecode
  | ok pw =>
    simp only [hword, Except.toOption] at hdecode
    cases hop : decode pw with
    | error _ =>
      rw [hop] at hdecode
      cases hdecode
    | ok j =>
      rw [hop] at hdecode
      cases hdecode
      exact stepRunsTheDecodedOperation _ pw _ s.script rfl hop

/-- Settles O37: port P is presented nothing and port C a reserved code. -/
theorem reservedCodeAnswersIllegalCommand : Obligations.ReservedCodeAnswersIllegalCommand :=
  fun _ _ _ hscript hcode => step_of_ports hscript rfl (presentC_of_reserved hcode)

/-- Settles O38: the step takes no line and clears the answers. -/
theorem stepWithNothingPresentedIsIdle : Obligations.StepWithNothingPresentedIsIdle := by
  intro s hscript
  rw [step_of_empty_script hscript, State.beginStep, ← hscript]

/-- Settles O39: both ports give a next state. -/
theorem stepJoinsBothPorts : Obligations.StepJoinsBothPorts := by
  intro s sp sc line rest w pins i hscript hlineP hlineC hdecode hp hc
  refine step_of_ports hscript (by rw [hlineP]; exact hp) ?_
  rw [hlineC]
  simp only [presentC, hdecode]
  exact hc

/-- Settles O40: the reserved code leaves the block, and port P's operation leaves what port C owns. -/
theorem reservedCodeDoesNotStopPortP : Obligations.ReservedCodeDoesNotStopPortP := by
  intro s sp line rest w pins hscript hlineP hlineC hcode hp
  obtain ⟨htail, hinUse⟩ := (eachPortWritesOnlyWhatItOwns _ _ _ hp).1 (decodeP_port w)
  have hmerge : Block.merge sp.toBlock s.toBlock = sp.toBlock := Block.merge_eq_left htail hinUse
  rw [step_of_ports hscript (by rw [hlineP]; exact hp) (by rw [hlineC]; exact presentC_of_reserved hcode),
    State.beginStep_toBlock, hmerge]

/-! ### The machine's step is the block's -/

/-- The reply of a step of the block as an outcome of the machine: the block replaced, the answers shown. -/
def State.answerStep (s : State) : StepReply Config.AW → Host.Outcome State Fault Refusal
  | .ok (b, o) => .next { s with toBlock := b, out := o }
  | .error f => .fault f

section
variable {s t : State} {line : StepInput} {rest : List StepInput}

theorem State.answer_eq_answerStep (hquiet : s.out = StepOut.quiet) (r : Reply Config.AW) :
    s.answer r = s.answerStep (Reply.alone r) := by
  cases r with
  | error _ => rfl
  | ok r => simp only [State.answer, Reply.alone, State.answerStep, hquiet]

theorem presentP_eq (hquiet : s.out = StepOut.quiet) (cmd : Option (BitVec 9)) :
    presentP cmd s = s.answerStep (s.toBlock.onP Config.table s.tail cmd) := by
  cases cmd with
  | none => rw [presentP, Block.onP, State.answerStep, ← hquiet]
  | some w =>
    rw [presentP, exec_eq_perform, State.answer_eq_answerStep hquiet]
    rfl

theorem presentC_eq (hquiet : s.out = StepOut.quiet) (pins : Option CPins) :
    presentC pins s = s.answerStep (s.toBlock.onC Config.table s.head pins) := by
  cases pins with
  | none => rw [presentC, Block.onC, State.answerStep, ← hquiet]
  | some w =>
    cases hdecode : decodeC w with
    | ok i =>
      simp only [presentC, Block.onC, hdecode]
      rw [exec_eq_perform, State.answer_eq_answerStep hquiet]
      rfl
    | error _ =>
      simp only [presentC, Block.onC, hdecode]
      exact State.answer_eq_answerStep hquiet _

/-- The machine's step is that of its block with the line taken off the script. -/
theorem step_eq_answerStep (hscript : s.script = line :: rest) :
    step s = (s.beginStep rest).answerStep (s.toBlock.step Config.table line) := by
  rw [step_of_script hscript, runPorts, presentT_eq, presentP_eq rfl, presentC_eq rfl, Block.step, Block.stepSeeing_eq]
  simp only [State.beginStep_toBlock]
  cases s.toBlock.onP Config.table s.tail line.p with
  | error _ => rfl
  | ok _ => cases s.toBlock.onC Config.table s.head line.c <;> rfl

/-- A next state of a step is that of an idle step, or has the block and the answers of the block's step. -/
theorem step_eq_next (h : step s = .next t) :
    (s.script = [] ∧ t = s.beginStep []) ∨
    ∃ line rest b o, s.script = line :: rest ∧ s.toBlock.step Config.table line = .ok (b, o) ∧
      t = { toBlock := b, script := rest, out := o } := by
  cases hscript : s.script with
  | nil =>
    rw [step_of_empty_script hscript] at h
    cases h
    exact .inl ⟨rfl, rfl⟩
  | cons line rest =>
    rw [step_eq_answerStep hscript] at h
    cases hstep : s.toBlock.step Config.table line with
    | error _ =>
      rw [hstep] at h
      cases h
    | ok r =>
      rw [hstep] at h
      cases h
      exact .inr ⟨line, rest, r.1, r.2, rfl, hstep, rfl⟩

end

/-- Settles O41: the machine's ports are the block's at the machine's depth and table. -/
theorem machineStepIsBlockStep : Obligations.MachineStepIsBlockStep := by
  refine fun s line rest hscript => ⟨fun b o hstep => ?_, fun f hstep => ?_⟩ <;>
    rw [step_eq_answerStep hscript, hstep] <;> rfl

/-- Settles O48: the block's step keeps the invariant, and an idle step keeps the block. -/
theorem stepKeepsTheInvariant : Obligations.StepKeepsTheInvariant := by
  intro s t hinv hstep
  rcases step_eq_next hstep with ⟨_, rfl⟩ | ⟨line, rest, b, o, _, hblock, rfl⟩
  · exact hinv
  · obtain ⟨_, _, hblock', hinv', _⟩ := Block.Inv.step_eq_fifo (by decide) hinv Config.table line
    cases hblock'.symm.trans hblock
    exact hinv'

/-- Settles O49: under the invariant the block's step answers. -/
theorem stepNeverStopsUnderTheInvariant : Obligations.StepNeverStopsUnderTheInvariant := by
  intro s hinv
  cases hscript : s.script with
  | nil => exact ⟨_, step_of_empty_script hscript⟩
  | cons line rest =>
    obtain ⟨b, o, hblock, _⟩ := Block.Inv.step_eq_fifo (by decide) hinv Config.table line
    exact ⟨_, (machineStepIsBlockStep s line rest hscript).1 b o hblock⟩

/-- Settles O46: the reset values, with no cell listed. -/
theorem resetIsEmptyAndClosed : Obligations.ResetIsEmptyAndClosed :=
  ⟨rfl, rfl, rfl, rfl, rfl, rfl, rfl, Memory.read_nil⟩

/-- Settles O47: no cell is listed and the valid region is empty. -/
theorem resetMeetsTheInvariant : Obligations.ResetMeetsTheInvariant where
  canonical := State.reset_slot_wf
  inRange := nofun
  written := nofun

section
variable {aw : Nat} {T : Table} {seenTail seenHead : BitVec aw} {inp : StepInput} {b b' : Block aw} {o : StepOut}
  {cmd : Option (BitVec 9)} {pins : Option CPins}

/-- A step that answers is one in which both ports answer. -/
theorem Block.stepSeeing_eq_ok (h : b.stepSeeing T seenTail seenHead inp = .ok (b', o)) :
    ∃ bp op bc oc, b.onP T seenTail inp.p = .ok (bp, op) ∧ b.onC T seenHead inp.c = .ok (bc, oc) ∧
      b' = Block.merge bp bc ∧ o = { t := inp.t.map T, p := op.p, c := oc.c } := by
  rw [Block.stepSeeing_eq] at h
  obtain ⟨bp, op, hp⟩ := b.onP_ok T seenTail inp.p
  rw [hp] at h
  cases hc : b.onC T seenHead inp.c with
  | error _ =>
    rw [hc] at h
    cases h
  | ok r =>
    rw [hc] at h
    cases h
    exact ⟨bp, op, r.1, r.2, hp, rfl, rfl, rfl⟩

/-- `head` moves by one exactly when port P answers that it stored (R75). -/
theorem Block.onP_head (h : b.onP T seenTail cmd = .ok (b', o)) :
    b'.head = if o.p.any (·.ok) then nextIndex b.head else b.head := by
  rcases b.onP_cases T seenTail cmd with ⟨_, hanswer, hport⟩ | ⟨_, _, _, _, _, _, hanswer, hport⟩ <;>
    cases hport.symm.trans h <;> rw [hanswer] <;> rfl

/-- `tail` moves by one exactly when port C answers that an item was delivered or lost (R76, R104). -/
theorem Block.onC_tail (h : b.onC T seenHead pins = .ok (b', o)) :
    b'.tail = if o.c.any (fun r => r.dvalid || r.status == .copyFault) then nextIndex b.tail else b.tail := by
  rcases b.onC_cases T seenHead pins with ⟨_, _, _, hanswer, hport⟩ | ⟨_, _, _, _, _, _, _, _, _, hanswer, hport⟩ |
    ⟨_, _, _, _, _, _, _, hport⟩
  · cases hport.symm.trans h
    rw [hanswer]
    rfl
  · cases hport.symm.trans h
    rw [hanswer]
    rfl
  · cases hport.symm.trans h

end

/-- Settles O43: each cursor is moved by the port that owns it, as that port's answer says. -/
theorem cursorsMoveByAtMostOne : Obligations.CursorsMoveByAtMostOne := by
  intro aw T inp b b' o hstep
  obtain ⟨bp, op, bc, oc, hp, hc, rfl, rfl⟩ := Block.stepSeeing_eq_ok hstep
  have hhead := Block.onP_head hp
  have htail := Block.onC_tail hc
  exact ⟨hhead, htail⟩

/-! ### Lengths (R54, D18) -/

/-- An operation with its length replaced. -/
def mapInstrLen (f : Len → Len) : Instr → Instr
  | .read len copyOk => .read (f len) copyOk
  | .write len => .write (f len)
  | .lookup idx => .lookup idx
  | .evtPress k => .evtPress k
  | .evtRelease k => .evtRelease k
  | .enq v => .enq v
  | .deq => .deq
  | .openSession subOk => .openSession subOk
  | .close => .close

/-- An answer with its reported length replaced. -/
def Answer.mapRet (f : Len → Len) : Answer → Answer
  | .c r => .c { r with ret := f r.ret }
  | .t code => .t code
  | .p r => .p r

section
variable {aw : Nat} {T : Table} {f : Len → Len}

/-- The code alone selects the operation of a word of port C. -/
theorem decodeC_mapLen (f : Len → Len) (w : CPins) :
    decodeC { w with len := f w.len } = (decodeC w).map (mapInstrLen f) := by
  rcases decodeC_cases w with ⟨hdecode, hcode⟩ | ⟨hdecode, hcode⟩ | ⟨hdecode, hcode⟩ | ⟨hdecode, hcode⟩ |
    ⟨hdecode, hcode⟩ | ⟨hdecode, hcode⟩ <;> rw [hdecode]
  iterate 5 rw [decodeC, hcode]; rfl
  exact decodeC_of_reserved hcode

/-- No operation looks at its length: it is reported, or 0 is. -/
theorem Block.performSeeing_mapLen (hf : f 0 = 0) (seenTail seenHead : BitVec aw) (i : Instr) (b : Block aw) :
    b.performSeeing T seenTail seenHead (mapInstrLen f i) =
      (b.performSeeing T seenTail seenHead i).map fun r => (r.1, r.2.mapRet f) := by
  cases i with
  | evtPress _ | evtRelease _ =>
    simp only [mapInstrLen, Block.performSeeing, Block.evtPress, Block.evtRelease, Block.whenSubscribed]
    cases b.inUse <;> rfl
  | lookup _ | enq _ => rfl
  | deq =>
    simp only [mapInstrLen, Block.performSeeing, Block.deq]
    cases b.tryDequeue seenHead <;> simp [Except.map, Answer.mapRet, hf]
  | openSession subOk =>
    simp only [mapInstrLen, Block.performSeeing, Block.openSession]
    cases b.inUse <;> cases subOk <;> simp [Except.map, Answer.mapRet, CResult.error, hf]
  | read len copyOk =>
    simp only [mapInstrLen, Block.performSeeing, Block.sessionRead, Block.whenOpen]
    cases b.inUse with
    | false => simp [Except.map, Answer.mapRet, CResult.error, hf]
    | true =>
      rcases b.tryDequeue seenHead with _ | ⟨_, _ | _⟩
      · rfl
      · rfl
      · cases copyOk <;> simp [Except.map, Answer.mapRet, CResult.error, hf]
  | write len =>
    simp only [mapInstrLen, Block.performSeeing, Block.sessionWrite, Block.whenOpen]
    cases b.inUse <;> simp [Except.map, Answer.mapRet, CResult.error, hf]
  | close =>
    simp only [mapInstrLen, Block.performSeeing, Block.close, Block.whenOpen]
    cases b.inUse <;> simp [Except.map, Answer.mapRet, CResult.error, hf]

theorem Reply.alone_mapRet (f : Len → Len) (r : Reply aw) :
    Reply.alone (r.map fun x => (x.1, x.2.mapRet f)) = (Reply.alone r).map fun x => (x.1, x.2.mapRet f) := by
  rcases r with _ | ⟨_, _ | _ | _⟩ <;> rfl

theorem Block.onC_mapLen (hf : f 0 = 0) (seenHead : BitVec aw) (pins : Option CPins) (b : Block aw) :
    b.onC T seenHead (pins.map fun w => { w with len := f w.len }) =
      (b.onC T seenHead pins).map fun r => (r.1, r.2.mapRet f) := by
  cases pins with
  | none => rfl
  | some w =>
    simp only [Option.map_some, Block.onC, decodeC_mapLen f w]
    cases decodeC w with
    | ok i =>
      simp only [Except.map]
      rw [Block.performSeeing_mapLen hf]
      exact Reply.alone_mapRet f _
    | error _ => simp [Except.map, Block.reservedCmd, Reply.alone, CResult.error, StepOut.mapRet, hf]

end

/-- Settles O45: port C copies its length, and port P is presented none. -/
theorem lengthsAreCopiedAndDecideNothing : Obligations.LengthsAreCopiedAndDecideNothing := by
  intro aw T f inp b hf
  rw [Block.step, Block.step, Block.stepSeeing_eq, Block.stepSeeing_eq, StepInput.mapLen_c, Block.onC_mapLen hf]
  rw [StepInput.mapLen_p, StepInput.mapLen_t]
  cases b.onP T b.tail inp.p with
  | error _ => rfl
  | ok _ => cases b.onC T b.head inp.c <;> rfl

section
variable {lenw : Nat} {inp : StepInput} {o : StepOut}

theorem lengthFits_iff {n : Len} : lengthFits lenw n = true ↔ n % 2 ^ lenw = n := by
  rw [lengthFits, decide_eq_true_iff, Nat.mod_eq_iff_lt (Nat.two_pow_pos lenw).ne']

/-- What is presented fits exactly when taking its length to the width changes nothing. -/
theorem StepInput.mapLen_of_fits (h : inp.fits lenw = true) : inp.mapLen (· % 2 ^ lenw) = inp := by
  obtain ⟨t, p, c⟩ := inp
  cases c with
  | none => rfl
  | some pins =>
    have hlen : pins.len % 2 ^ lenw = pins.len := lengthFits_iff.1 h
    simp [StepInput.mapLen, hlen]

theorem StepOut.fits_of_mapRet (h : o.mapRet (· % 2 ^ lenw) = o) : o.fits lenw = true := by
  obtain ⟨t, p, c⟩ := o
  cases c with
  | none => rfl
  | some r =>
    have hret : r.ret % 2 ^ lenw = r.ret := by
      simpa [StepOut.mapRet] using congrArg (fun o => o.c.map (·.ret)) h
    exact lengthFits_iff.2 hret

/-- A step answers a length that fits if it is presented one. -/
theorem Block.step_fits {aw : Nat} {T : Table} {b b' : Block aw} (hfits : inp.fits lenw = true)
    (hstep : b.step T inp = .ok (b', o)) : o.fits lenw = true := by
  have hcopy := lengthsAreCopiedAndDecideNothing aw T (· % 2 ^ lenw) inp b (Nat.zero_mod _)
  rw [StepInput.mapLen_of_fits hfits, hstep] at hcopy
  exact StepOut.fits_of_mapRet (congrArg Prod.snd (Except.ok.inj hcopy)).symm

end

/-- Settles O44: taking the lengths to their width changes nothing of what is presented, hence nothing of the answer. -/
theorem stepKeepsLengthsInTheirWidth : Obligations.StepKeepsLengthsInTheirWidth := by
  intro lenw s t hfits hstep
  obtain ⟨hscript, _⟩ := Bool.and_eq_true_iff.1 hfits
  rcases step_eq_next hstep with ⟨_, rfl⟩ | ⟨line, rest, b, o, hlines, hblock, rfl⟩
  · rfl
  · rw [hlines, List.all_cons] at hscript
    obtain ⟨hline, hrest⟩ := Bool.and_eq_true_iff.1 hscript
    exact Bool.and_eq_true_iff.2 ⟨hrest, Block.step_fits hline hblock⟩

end Sys2Proof.Machine

/-! ## Proofs: the stale alternative (R22, R39) -/

namespace Sys2Proof.Machine

section
variable {aw : Nat} {T : Table} {b bc : Block aw} {seenTail seenTail' seenHead seenHead' : BitVec aw}
  {cmd : Option (BitVec 9)} {pins : Option CPins}

/-- What port P reads for `tail` matters only through the outcome of its test. -/
theorem Block.onP_eq_of_test (htest : ∀ w, cmd = some w → testsSpace b.inUse (decodeP w) = true →
    (nextIndex b.head = seenTail ↔ nextIndex b.head = seenTail')) :
    b.onP T seenTail' cmd = b.onP T seenTail cmd := by
  rw [Block.onP_congr rfl rfl (.inl rfl) htest]
  rcases b.onP_cases T seenTail cmd with ⟨_, _, hport⟩ | ⟨_, _, _, _, _, _, _, hport⟩ <;> rw [hport] <;> rfl

/-- What port C reads for `head` matters only through the outcome of its test. -/
theorem Block.onC_eq_of_test (htest : ∀ w i, pins = some w → decodeC w = .ok i → testsItems b.inUse i = true →
    (seenHead = b.tail ↔ seenHead' = b.tail)) :
    b.onC T seenHead' pins = b.onC T seenHead pins := by
  rw [Block.onC_congr rfl rfl fun w i hpins hdecode htests => ⟨htest w i hpins hdecode htests, fun _ => rfl⟩]
  rcases b.onC_cases T seenHead pins with ⟨_, _, _, _, hport⟩ | ⟨_, _, _, _, _, _, _, _, _, _, hport⟩ |
    ⟨_, _, _, _, _, _, _, hport⟩ <;> rw [hport] <;> rfl

/-- An operation that makes a dequeue test leaves the session as it is. -/
theorem Block.onC_inUse_of_test {w : CPins} {i : Instr} {o : StepOut} (hdecode : decodeC w = .ok i)
    (htests : testsItems b.inUse i = true) (h : b.onC T seenHead (some w) = .ok (bc, o)) : bc.inUse = b.inUse := by
  rcases b.onC_cases T seenHead (some w) with ⟨u, _, hu, _, hport⟩ | ⟨_, _, _, _, _, _, _, _, _, _, hport⟩ |
    ⟨_, _, _, _, _, _, _, hport⟩
  · cases hport.symm.trans h
    rcases hu with rfl | ⟨_, hw, hsession⟩
    · rfl
    · cases hw
      rcases hsession with hsession | hsession <;> cases hdecode.symm.trans hsession <;> cases htests
  · cases hport.symm.trans h
    rfl
  · cases hport.symm.trans h

/-- The session after port C does not depend on what port C reads for `head`. -/
theorem Block.onC_inUse_unique {bc' : Block aw} {o o' : StepOut} (h : b.onC T seenHead pins = .ok (bc, o))
    (h' : b.onC T seenHead' pins = .ok (bc', o')) : bc'.inUse = bc.inUse := by
  by_cases htests : ∃ w i, pins = some w ∧ decodeC w = .ok i ∧ testsItems b.inUse i = true
  · obtain ⟨w, i, rfl, hdecode, htests⟩ := htests
    rw [Block.onC_inUse_of_test hdecode htests h, Block.onC_inUse_of_test hdecode htests h']
  · have hsame : b.onC T seenHead' pins = b.onC T seenHead pins := Block.onC_eq_of_test fun w i hpins hdecode ht =>
      absurd ⟨w, i, hpins, hdecode, ht⟩ htests
    cases h.symm.trans (hsame.symm.trans h')
    rfl

end

/-! ### Copies that catch up -/

section
variable {aw : Nat} {seen cursor : BitVec aw}

/-- A copy that catches up comes nearer to its cursor. -/
theorem sub_catchUp_le (seen cursor : BitVec aw) (lag : Nat) :
    (cursor - catchUp seen cursor lag).toNat ≤ (cursor - seen).toNat := by
  have hle : min lag (cursor - seen).toNat ≤ (cursor - seen).toNat := Nat.min_le_right _ _
  have hmoved : (BitVec.ofNat aw (min lag (cursor - seen).toNat)).toNat ≤ (cursor - seen).toNat := by
    rwa [BitVec.toNat_ofNat, Nat.mod_eq_of_lt (Nat.lt_of_le_of_lt hle (BitVec.isLt _))]
  have hsub : cursor - catchUp seen cursor lag = cursor - seen - BitVec.ofNat aw (min lag (cursor - seen).toNat) :=
    sub_add_eq_sub_sub _ _ _
  rw [hsub, BitVec.toNat_sub_of_le hmoved]
  exact Nat.sub_le _ _

/-- A copy that lies between `base` and its cursor still does so when it has caught up. -/
theorem catchUp_sub_le {base : BitVec aw} (h : (seen - base).toNat ≤ (cursor - base).toNat) (lag : Nat) :
    (catchUp seen cursor lag - base).toNat ≤ (cursor - base).toNat := by
  have hbefore : (cursor - seen).toNat = (cursor - base).toNat - (seen - base).toNat := by
    rw [← sub_sub_sub_cancel_right cursor seen base, BitVec.toNat_sub_of_le h]
  have hafter : (cursor - catchUp seen cursor lag).toNat ≤ (cursor - base).toNat := by
    have := sub_catchUp_le seen cursor lag
    omega
  rw [← sub_sub_sub_cancel_left base (catchUp seen cursor lag) cursor, BitVec.toNat_sub_of_le hafter]
  exact Nat.sub_le _ _

/-- A copy that may catch up by a whole lap is its cursor. -/
theorem catchUp_eq_cursor {lag : Nat} (h : depth aw ≤ lag) : catchUp seen cursor lag = cursor := by
  have hlt : (cursor - seen).toNat < depth aw := (cursor - seen).isLt
  rw [catchUp, Nat.min_eq_right (by omega), add_toNat_sub]

end

/-! ### The invariant of the copies -/

section
variable {aw : Nat} {T : Table} {sb sb' : StaleBlock aw} {b : Block aw} {seenTail seenHead : BitVec aw} {lag : Nat}

/-- The block with copies of the other side's cursors. -/
def Block.withCopies (b : Block aw) (seenTail seenHead : BitVec aw) : StaleBlock aw :=
  { toBlock := b, tailSeen := seenTail, headSeen := seenHead }

theorem StaleBlock.seeTail_of_tests {cmd : Option (BitVec 9)} {w : BitVec 9} (hw : cmd = some w)
    (htests : testsSpace sb.inUse (decodeP w) = true) : sb.seeTail lag cmd = catchUp sb.tailSeen sb.tail lag := by
  rw [hw, StaleBlock.seeTail, if_pos htests]

theorem StaleBlock.seeHead_of_tests {pins : Option CPins} {w : CPins} {i : Instr} (hw : pins = some w)
    (hdecode : decodeC w = .ok i) (htests : testsItems sb.inUse i = true) :
    sb.seeHead lag pins = catchUp sb.headSeen sb.head lag := by
  simp only [hw, StaleBlock.seeHead, hdecode, htests, if_true]

/-- `tail_seen` is kept or catches up, and in both cases is no further behind. -/
theorem StaleBlock.sub_seeTail_le (sb : StaleBlock aw) (lag : Nat) (cmd : Option (BitVec 9)) :
    (sb.tail - sb.seeTail lag cmd).toNat ≤ (sb.tail - sb.tailSeen).toNat := by
  unfold StaleBlock.seeTail
  split
  · exact le_rfl
  · split
    · exact sub_catchUp_le _ _ _
    · exact le_rfl

/-- `head_seen` is kept or catches up, and in both cases is not ahead of `head`. -/
theorem StaleBlock.seeHead_sub_le (h : (sb.headSeen - sb.tail).toNat ≤ sb.toBlock.count) (lag : Nat)
    (pins : Option CPins) : (sb.seeHead lag pins - sb.tail).toNat ≤ sb.toBlock.count := by
  unfold StaleBlock.seeHead
  split
  · exact h
  · split
    · split
      · exact catchUp_sub_le h lag
      · exact h
    · exact h

/-- The copies as the ports use them in a step keep the order round the ring. -/
theorem StaleBlock.Inv.see (h : sb.Inv) (lagP lagC : Nat) (inp : StepInput) :
    (sb.toBlock.withCopies (sb.seeTail lagP inp.p) (sb.seeHead lagC inp.c)).Inv where
  block := h.block
  tailBehind := Nat.lt_of_le_of_lt (Nat.add_le_add_right (sb.sub_seeTail_le lagP inp.p) _) h.tailBehind
  headBehind := StaleBlock.seeHead_sub_le h.headBehind lagC inp.c

/-- Going round from `tail_seen` to `head` one passes `tail`. -/
theorem StaleBlock.Inv.head_sub_tailSeen (h : (b.withCopies seenTail seenHead).Inv) :
    (b.head - seenTail).toNat = (b.tail - seenTail).toNat + b.count := by
  have hlap : (b.tail - seenTail).toNat + b.count < depth aw := h.tailBehind
  rw [← sub_add_sub_cancel' b.tail seenTail b.head, BitVec.toNat_add]
  exact Nat.mod_eq_of_lt hlap

/-- A port P that sees room has room: what is seen as free is free. -/
theorem StaleBlock.Inv.room (hw : 1 ≤ aw) (h : (b.withCopies seenTail seenHead).Inv)
    (hroom : nextIndex b.head ≠ seenTail) :
    (b.tail - seenTail).toNat + b.count + 1 < depth aw ∧ nextIndex b.head ≠ b.tail := by
  have hnext := nextIndex_sub_toNat hroom
  have hlt : (nextIndex b.head - seenTail).toNat < depth aw := BitVec.isLt _
  rw [h.head_sub_tailSeen] at hnext
  rw [Ne, nextIndex_eq_iff_count hw]
  omega

/-- A port C that sees an item has an item. -/
theorem StaleBlock.Inv.item (h : (b.withCopies seenTail seenHead).Inv) (hitem : seenHead ≠ b.tail) :
    b.head ≠ b.tail := by
  intro he
  have hbehind : (seenHead - b.tail).toNat ≤ b.count := h.headBehind
  rw [b.count_eq_zero_iff.2 he, Nat.le_zero] at hbehind
  exact hitem ((sub_eq_zero_iff _ _).1 (BitVec.eq_of_toNat_eq (by simpa using hbehind)))

theorem StaleBlock.Inv.stored (hw : 1 ≤ aw) (h : (b.withCopies seenTail seenHead).Inv)
    (hroom : nextIndex b.head ≠ seenTail) (v : Byte) : ((b.stored v).withCopies seenTail seenHead).Inv := by
  obtain ⟨hlap, hfree⟩ := h.room hw hroom
  have hcount : (b.stored v).count = b.count + 1 := Block.count_stored hfree
  have hbehind : (seenHead - b.tail).toNat ≤ b.count := h.headBehind
  refine ⟨h.block.stored v hfree, ?_, ?_⟩
  · show (b.tail - seenTail).toNat + (b.stored v).count < depth aw
    omega
  · show (seenHead - b.tail).toNat ≤ (b.stored v).count
    omega

theorem StaleBlock.Inv.taken (h : (b.withCopies seenTail seenHead).Inv) (hitem : seenHead ≠ b.tail) :
    (b.taken.withCopies seenTail seenHead).Inv := by
  have hne := h.item hitem
  have hcount : b.taken.count + 1 = b.count := Block.count_taken hne
  have hlap : (b.tail - seenTail).toNat + b.count < depth aw := h.tailBehind
  have hbehind : (seenHead - b.tail).toNat ≤ b.count := h.headBehind
  have hless : (seenHead - nextIndex b.tail).toNat + 1 = (seenHead - b.tail).toNat := sub_nextIndex_toNat hitem
  refine ⟨h.block.taken hne, ?_, ?_⟩
  · show (nextIndex b.tail - seenTail).toNat + b.taken.count < depth aw
    by_cases hback : nextIndex b.tail = seenTail
    · rw [hback, BitVec.sub_self, BitVec.toNat_zero]
      omega
    · rw [nextIndex_sub_toNat hback]
      omega
  · show (seenHead - nextIndex b.tail).toNat ≤ b.taken.count
    omega

theorem StaleBlock.Inv.setInUse (h : (b.withCopies seenTail seenHead).Inv) (u : Bool) :
    (Block.withCopies { b with inUse := u } seenTail seenHead).Inv :=
  ⟨h.block.setInUse u, h.tailBehind, h.headBehind⟩

/-- A step of the alternative is a step of its block with the copies of that step, which are kept. -/
theorem StaleBlock.step_eq (lagP lagC : Nat) (inp : StepInput) (sb : StaleBlock aw) : sb.step T lagP lagC inp =
    (sb.toBlock.stepSeeing T (sb.seeTail lagP inp.p) (sb.seeHead lagC inp.c) inp).map fun r =>
      (r.1.withCopies (sb.seeTail lagP inp.p) (sb.seeHead lagC inp.c), r.2) := by
  simp only [StaleBlock.step]
  cases sb.toBlock.stepSeeing T (sb.seeTail lagP inp.p) (sb.seeHead lagC inp.c) inp <;> rfl

/-- The block's effects under copies in order keep the copies in order. -/
theorem StaleBlock.Inv.stepSeeing (hw : 1 ≤ aw) (h : (b.withCopies seenTail seenHead).Inv) {inp : StepInput}
    {b' : Block aw} {o : StepOut} (hstep : b.stepSeeing T seenTail seenHead inp = .ok (b', o)) :
    (b'.withCopies seenTail seenHead).Inv := by
  obtain ⟨bp, op, bc, oc, hp, hc, rfl, _⟩ := Block.stepSeeing_eq_ok hstep
  have hafterC : (bc.withCopies seenTail seenHead).Inv ∧ bc.head = b.head ∧ bc.slot = b.slot := by
    rcases b.onC_cases T seenHead inp.c with ⟨u, _, _, _, hport⟩ | ⟨_, _, _, _, _, _, _, hitem, _, _, hport⟩ |
      ⟨_, _, _, _, _, _, _, hport⟩
    · cases hport.symm.trans hc
      exact ⟨h.setInUse u, rfl, rfl⟩
    · cases hport.symm.trans hc
      exact ⟨h.taken hitem, rfl, rfl⟩
    · cases hport.symm.trans hc
  obtain ⟨hinv, hhead, hslot⟩ := hafterC
  rcases b.onP_cases T seenTail inp.p with ⟨_, _, hport⟩ | ⟨_, v, _, _, _, hroom, _, hport⟩
  · cases hport.symm.trans hp
    rwa [Block.merge_eq_right hhead hslot]
  · cases hport.symm.trans hp
    have hjoin : Block.merge (b.stored v) bc = bc.stored v := by
      simp only [Block.merge, Block.stored, hhead, hslot]
    rw [hjoin]
    exact hinv.stored hw (by rwa [hhead]) v

end

/-- Settles O56: the copies of the step are in order, and each port moves its cursor inside the room it sees. -/
theorem staleStepKeepsItsInvariant : Obligations.StaleStepKeepsItsInvariant := by
  intro aw lagP lagC T inp sb sb' o hlegal hinv hstep
  rw [StaleBlock.step_eq] at hstep
  cases hblock : sb.toBlock.stepSeeing T (sb.seeTail lagP inp.p) (sb.seeHead lagC inp.c) inp with
  | error _ =>
    rw [hblock] at hstep
    cases hstep
  | ok r =>
    rw [hblock] at hstep
    cases hstep
    exact (hinv.see lagP lagC inp).stepSeeing (legalWidth_iff.1 hlegal) hblock

section
variable {aw : Nat} {T : Table} {b be : Block aw} {seenTail seenHead : BitVec aw} {oe : StepOut} {inp : StepInput}

/-- A stale port P that stores does so as the exact one does, into a free cell. -/
theorem StaleBlock.Inv.onP_stores (hw : 1 ≤ aw) (h : (b.withCopies seenTail seenHead).Inv) {bp : Block aw}
    {op : StepOut} (hp : b.onP T seenTail inp.p = .ok (bp, op)) (hmoved : bp.head ≠ b.head) :
    nextIndex b.head ≠ b.tail ∧ b.onP T b.tail inp.p = .ok (bp, op) := by
  rcases b.onP_cases T seenTail inp.p with ⟨_, _, hport⟩ | ⟨_, v, _, _, _, hroom, _, hport⟩
  · cases hport.symm.trans hp
    exact absurd rfl hmoved
  · obtain ⟨_, hfree⟩ := h.room hw hroom
    exact ⟨hfree, (Block.onP_eq_of_test fun _ _ _ => iff_of_false hroom hfree).trans hp⟩

/-- A stale port C that takes an item takes it as the exact one does. -/
theorem StaleBlock.Inv.onC_takes (h : (b.withCopies seenTail seenHead).Inv) {bc : Block aw} {oc : StepOut}
    (hc : b.onC T seenHead inp.c = .ok (bc, oc)) (hmoved : bc.tail ≠ b.tail) :
    b.head ≠ b.tail ∧ b.onC T b.head inp.c = .ok (bc, oc) := by
  rcases b.onC_cases T seenHead inp.c with ⟨_, _, _, _, hport⟩ | ⟨_, _, _, _, _, _, _, hitem, _, _, hport⟩ |
    ⟨_, _, _, _, _, _, _, hport⟩
  · cases hport.symm.trans hc
    exact absurd rfl hmoved
  · have hne := h.item hitem
    exact ⟨hne, (Block.onC_eq_of_test fun _ _ _ _ _ => iff_of_false hitem hne).trans hc⟩
  · cases hport.symm.trans hc

/-- No port C meets a cell without a value: what it sees as an item is one. -/
theorem StaleBlock.Inv.onC_ok (h : (b.withCopies seenTail seenHead).Inv) (T : Table) (pins : Option CPins) :
    ∃ bc oc, b.onC T seenHead pins = .ok (bc, oc) := by
  rcases b.onC_cases T seenHead pins with ⟨_, _, _, _, hport⟩ | ⟨_, _, _, _, _, _, _, _, _, _, hport⟩ |
    ⟨_, _, _, _, _, hitem, hread, _⟩
  · exact ⟨_, _, hport⟩
  · exact ⟨_, _, hport⟩
  · obtain ⟨v, hv⟩ := h.block.read_tail (h.item hitem)
    cases hv.symm.trans hread

end

/-- Settles O57: a stale port that moves its cursor does what the exact port does; one that does not may
have seen less. -/
theorem staleCopiesOnlyHideSpaceAndItems : Obligations.StaleCopiesOnlyHideSpaceAndItems := by
  intro aw lagP lagC T inp sb hlegal hinv
  have hw : 1 ≤ aw := legalWidth_iff.1 hlegal
  have hsee := hinv.see lagP lagC inp
  obtain ⟨bp, op, hp⟩ := sb.toBlock.onP_ok T (sb.seeTail lagP inp.p) inp.p
  obtain ⟨bc, oc, hc⟩ := hsee.onC_ok T inp.c
  obtain ⟨be, oe, hexact, _⟩ := hinv.block.step_eq_fifo hw T inp
  obtain ⟨bpe, ope, bce, oce, hpe, hce, rfl, rfl⟩ := Block.stepSeeing_eq_ok hexact
  refine ⟨_, _, _, _, by rw [StaleBlock.step_eq, Block.stepSeeing_eq, hp, hc]; rfl, hexact, fun hhead => ?_,
    fun htail => ?_, ?_⟩
  · obtain ⟨hfree, hsame⟩ := hsee.onP_stores hw hp hhead
    cases hsame.symm.trans hpe
    exact ⟨hfree, rfl, rfl, rfl⟩
  · obtain ⟨hitem, hsame⟩ := hsee.onC_takes hc htail
    cases hsame.symm.trans hce
    exact ⟨hitem, rfl, rfl⟩
  · have hsession := Block.onC_inUse_unique hce hc
    exact hsession

/-- Settles O58: a copy that has caught up wholly gives every test its exact outcome. -/
theorem staleWithoutLagIsExact : Obligations.StaleWithoutLagIsExact := by
  intro aw lagP lagC T inp sb hlagP hlagC b o hexact
  have hp : sb.toBlock.onP T (sb.seeTail lagP inp.p) inp.p = sb.toBlock.onP T sb.tail inp.p :=
    Block.onP_eq_of_test fun w hw htests => by
      rw [StaleBlock.seeTail_of_tests hw htests, catchUp_eq_cursor hlagP]
  have hc : sb.toBlock.onC T (sb.seeHead lagC inp.c) inp.c = sb.toBlock.onC T sb.head inp.c :=
    Block.onC_eq_of_test fun w i hw hdecode htests => by
      rw [StaleBlock.seeHead_of_tests hw hdecode htests, catchUp_eq_cursor hlagC]
  have hblock : sb.toBlock.stepSeeing T (sb.seeTail lagP inp.p) (sb.seeHead lagC inp.c) inp = .ok (b, o) := by
    rw [Block.stepSeeing_eq, hp, hc, ← Block.stepSeeing_eq]
    exact hexact
  exact ⟨_, by rw [StaleBlock.step_eq, hblock]; rfl, rfl⟩

end Sys2Proof.Machine

/-! ## Proofs: the arithmetic of the cursors (R77) and the canonical slot RAM (R30) -/

namespace Sys2Proof.Machine

section
variable {aw : Nat}

/-- The masked increment of R77: at a width of at least 1 the constant is the number 1. -/
theorem toNat_nextIndex (hw : 1 ≤ aw) (x : BitVec aw) : (nextIndex x).toNat = (x.toNat + 1) &&& (depth aw - 1) := by
  have hone : (1#aw).toNat = 1 := BitVec.toNat_one hw
  rw [nextIndex, BitVec.toNat_add, hone, depth, Nat.and_two_pow_sub_one_eq_mod]

theorem toNat_nextIndex_of_last (hw : 1 ≤ aw) {x : BitVec aw} (h : x.toNat = depth aw - 1) :
    (nextIndex x).toNat = 0 := by
  have hpos : 0 < depth aw := Nat.two_pow_pos aw
  rw [toNat_nextIndex hw, h, Nat.sub_add_cancel hpos, depth, Nat.and_two_pow_sub_one_eq_mod, Nat.mod_self]

theorem Block.count_of_le {b : Block aw} (h : b.tail.toNat ≤ b.head.toNat) :
    b.count = b.head.toNat - b.tail.toNat :=
  BitVec.toNat_sub_of_le h

theorem Block.count_of_lt {b : Block aw} (h : b.head.toNat < b.tail.toNat) :
    b.count = b.head.toNat + depth aw - b.tail.toNat := by
  have htail : b.tail.toNat < depth aw := b.tail.isLt
  have hsub : b.count = depth aw - (b.tail.toNat - b.head.toNat) := BitVec.toNat_sub_of_lt h
  omega

end

/-- Settles O27: the increment by its mask, the difference by the order of the cursors, `space` as the rest of `C - 1`. -/
theorem cursorArithmeticIsModuloDepth : Obligations.CursorArithmeticIsModuloDepth := by
  intro aw x b hlegal
  have hw : 1 ≤ aw := legalWidth_iff.1 hlegal
  have hspace := b.space_eq
  refine ⟨toNat_nextIndex hw x, toNat_nextIndex_of_last hw, Block.count_of_le, Block.count_of_lt,
    Nat.le_sub_one_of_lt b.count_lt_depth, hspace, fun hempty => ?_, fun hfull => ?_⟩
  · have hcount := b.count_eq_zero_iff.2 hempty
    exact ⟨hcount, by rw [hspace, hcount, Nat.sub_zero]⟩
  · have hcount := (nextIndex_eq_iff_count hw).1 hfull
    exact ⟨hcount, b.space_eq_zero_iff.2 hcount⟩

section
variable {m m' : Memory} {c d : Host.Cell} {a : Nat} {v : Byte}

theorem Memory.read_cons_same (c : Host.Cell) (m : Memory) : Memory.read (c :: m) c.1 = some c.2 := if_pos rfl

theorem Memory.read_cons_other (h : c.1 ≠ a) : Memory.read (c :: m) a = m.read a := if_neg h

/-- A cell that holds a value is listed. -/
theorem Memory.mem_of_read (h : m.read a = some v) : (a, v) ∈ m := by
  induction m with
  | nil => cases h
  | cons c m ih =>
    by_cases hc : c.1 = a
    · subst hc
      rw [Memory.read_cons_same] at h
      cases h
      exact List.mem_cons_self
    · rw [Memory.read_cons_other hc] at h
      exact List.mem_cons_of_mem _ (ih h)

/-- The first listed cell of a canonical memory is the lowest that holds a value. -/
theorem Memory.wf.first_le (hwf : Memory.wf (c :: m)) (h : Memory.read (c :: m) a = some v) : c.1 ≤ a := by
  obtain ⟨hfirst, _⟩ := Memory.wf_cons.1 hwf
  rcases List.mem_cons.1 (Memory.mem_of_read h) with rfl | hmem
  · exact le_rfl
  · exact (hfirst _ hmem).le

/-- Canonical memories that read alike begin with the same cell. -/
theorem Memory.wf.first_eq (hwf : Memory.wf (c :: m)) (hwf' : Memory.wf (d :: m'))
    (h : ∀ a, Memory.read (c :: m) a = Memory.read (d :: m') a) : c = d := by
  have hc : Memory.read (d :: m') c.1 = some c.2 := (h c.1).symm.trans (Memory.read_cons_same c m)
  have hd : Memory.read (c :: m) d.1 = some d.2 := (h d.1).trans (Memory.read_cons_same d m')
  have hindex : c.1 = d.1 := le_antisymm (hwf.first_le hd) (hwf'.first_le hc)
  rw [hindex, Memory.read_cons_same] at hc
  exact Prod.ext hindex (Option.some.inj hc).symm

/-- The cell a canonical memory begins with is not listed again. -/
theorem Memory.wf.read_rest (hwf : Memory.wf (c :: m)) : m.read c.1 = none := by
  obtain ⟨hfirst, _⟩ := Memory.wf_cons.1 hwf
  rw [Option.eq_none_iff_forall_ne_some]
  exact fun v hread => (hfirst _ (Memory.mem_of_read hread)).false

end

/-- Settles O28, by induction on both lists: the first cells agree, and so do the reads of what follows. -/
theorem canonicalSlotsAreEqualIfTheyReadAlike : Obligations.CanonicalSlotsAreEqualIfTheyReadAlike := by
  intro m
  induction m with
  | nil =>
    intro m' _ _ h
    cases m' with
    | nil => rfl
    | cons d m' => cases (h d.1).trans (Memory.read_cons_same d m')
  | cons c m ih =>
    intro m' hwf hwf' h
    cases m' with
    | nil => cases (h c.1).symm.trans (Memory.read_cons_same c m)
    | cons d m' =>
      obtain rfl : c = d := hwf.first_eq hwf' h
      refine congrArg (c :: ·) (ih m' (Memory.wf_cons.1 hwf).2 (Memory.wf_cons.1 hwf').2 fun a => ?_)
      by_cases ha : c.1 = a
      · rw [← ha, Memory.wf.read_rest hwf, Memory.wf.read_rest hwf']
      · simpa only [Memory.read_cons_other ha] using h a

end Sys2Proof.Machine

/-! ## Proofs: the operations one by one (R75, R76, R90 to R92, R103 to R109) -/

namespace Sys2Proof.Machine

section
variable {s : State}

/-- `ENQ` into a full buffer drops the value (R75, R80). -/
theorem exec_enq_of_full (hfull : nextIndex s.head = s.tail) (v : Byte) :
    exec (.enq v) s = .next { s with out := { s.out with p := some ⟨false, false⟩ } } := by
  have hreply : s.toBlock.enq s.tail v = .ok (s.toBlock, .p ⟨false, false⟩) := by
    rw [Block.enq, Block.tryEnqueue_of_full hfull]
  exact congrArg s.answer hreply

/-- `DEQ` of an empty buffer finds nothing (R76). -/
theorem exec_deq_of_empty (hempty : s.head = s.tail) :
    exec .deq s = .next { s with out := { s.out with c := some ⟨.ok, 0, none⟩ } } := by
  have hreply : s.toBlock.deq s.head = .ok (s.toBlock, .c ⟨.ok, 0, none⟩) := by
    rw [Block.deq, Block.tryDequeue_of_empty hempty]
  exact congrArg s.answer hreply

/-- A dequeue of a cell without a value stops (log entry 4). -/
theorem Block.tryDequeue_of_unwritten {aw : Nat} {b : Block aw} {seenHead : BitVec aw} (hne : seenHead ≠ b.tail)
    (hread : b.slot.read b.tail.toNat = none) : b.tryDequeue seenHead = .error (.unwrittenSlot b.tail.toNat) := by
  rw [Block.tryDequeue, if_pos hne, hread]

theorem exec_deq_of_unwritten (hne : s.head ≠ s.tail) (hread : s.slot.read s.tail.toNat = none) :
    exec .deq s = .fault (.unwrittenSlot s.tail.toNat) := by
  have hreply : s.toBlock.deq s.head = .error (.unwrittenSlot s.tail.toNat) := by
    rw [Block.deq, Block.tryDequeue_of_unwritten hne hread]
  exact congrArg s.answer hreply

theorem exec_read_of_unwritten (hopen : s.inUse = true) (hne : s.head ≠ s.tail)
    (hread : s.slot.read s.tail.toNat = none) (len : Len) (copyOk : Bool) :
    exec (.read len copyOk) s = .fault (.unwrittenSlot s.tail.toNat) := by
  have hreply : s.toBlock.sessionRead s.head len copyOk = .error (.unwrittenSlot s.tail.toNat) := by
    rw [Block.sessionRead, Block.whenOpen_open hopen, Block.tryDequeue_of_unwritten hne hread]
  exact congrArg s.answer hreply

/-- `WRITE` in an open session reports its length (R106). -/
theorem exec_write_of_open (hopen : s.inUse = true) (len : Len) :
    exec (.write len) s = .next { s with out := { s.out with c := some ⟨.ok, len, none⟩ } } :=
  congrArg s.answer (Block.whenOpen_open hopen _)

theorem exec_read_of_closed (hclosed : s.inUse = false) (len : Len) (copyOk : Bool) :
    exec (.read len copyOk) s = .next { s with out := { s.out with c := some ⟨.notOpen, 0, none⟩ } } :=
  congrArg s.answer (Block.whenOpen_closed hclosed _)

theorem exec_write_of_closed (hclosed : s.inUse = false) (len : Len) :
    exec (.write len) s = .next { s with out := { s.out with c := some ⟨.notOpen, 0, none⟩ } } :=
  congrArg s.answer (Block.whenOpen_closed hclosed _)

theorem exec_close_of_closed (hclosed : s.inUse = false) :
    exec .close s = .next { s with out := { s.out with c := some ⟨.notOpen, 0, none⟩ } } :=
  congrArg s.answer (Block.whenOpen_closed hclosed _)

theorem exec_evtPress_of_closed (hclosed : s.inUse = false) (k : Key) :
    exec (.evtPress k) s = .next { s with out := { s.out with p := some ⟨false, false⟩ } } :=
  congrArg s.answer (Block.whenSubscribed_closed hclosed _)

theorem exec_evtRelease_of_closed (hclosed : s.inUse = false) (k : Key) :
    exec (.evtRelease k) s = .next { s with out := { s.out with p := some ⟨false, false⟩ } } :=
  congrArg s.answer (Block.whenSubscribed_closed hclosed _)

end

/-- Settles O8: the word by definition, the answer by the rule of the operation. -/
theorem lookupAnswersTableEntry : Obligations.LookupAnswersTableEntry := fun idx s => ⟨rfl, exec_lookup idx s⟩

/-- Settles O9: room or no room. -/
theorem enqStoresUnlessFull : Obligations.EnqStoresUnlessFull :=
  fun v _ => ⟨fun hroom => exec_enq_of_room hroom v, fun hfull => exec_enq_of_full hfull v⟩

/-- Settles O10: an item or none. -/
theorem deqTakesOldestUnlessEmpty : Obligations.DeqTakesOldestUnlessEmpty :=
  fun _ => ⟨fun _ => exec_deq_of_item, exec_deq_of_empty⟩

/-- Settles O11: the index of the byte is the key, and the key code finds room or not. -/
theorem pressEnqueuesItsKeyCode : Obligations.PressEnqueuesItsKeyCode := by
  intro k s hopen
  refine ⟨rfl, tableIndex_pressByte k, fun hroom => ?_, fun hfull => exec_evtPress_of_full hopen hfull k⟩
  rw [tableIndex_pressByte]
  exact exec_evtPress_of_room hopen hroom k

/-- Settles O12: the word by definition, the answer by the rule of the operation. -/
theorem releaseIsFilteredAndHandled : Obligations.ReleaseIsFilteredAndHandled :=
  fun k _ hopen => ⟨rfl, exec_evtRelease_of_open hopen k⟩

/-- Settles O13: the gate on the session comes before either form. -/
theorem eventsWhileClosedAreIgnored : Obligations.EventsWhileClosedAreIgnored :=
  fun k _ hclosed => ⟨exec_evtPress_of_closed hclosed k, exec_evtRelease_of_closed hclosed k⟩

/-- Settles O15: the two outcomes of the copy. -/
theorem readTakesOneItemThenCopies : Obligations.ReadTakesOneItemThenCopies :=
  fun len _ _ hopen hne hread => ⟨exec_read_of_item hopen hne hread len true, exec_read_of_item hopen hne hread len false⟩

/-- Settles O18: the word by definition, the answer by the rule of the operation. -/
theorem writeReportsLengthOnly : Obligations.WriteReportsLengthOnly :=
  fun len _ hopen => ⟨rfl, exec_write_of_open hopen len⟩

/-- Settles O19: the rule of `CLOSE` in an open session. -/
theorem closeClearsInUseOnly : Obligations.CloseClearsInUseOnly := fun _ => exec_close_of_open

/-- Settles O20: the gate on the session comes before each of the three. -/
theorem closedSessionCallsAnswerNotOpen : Obligations.ClosedSessionCallsAnswerNotOpen :=
  fun len copyOk _ hclosed =>
    ⟨exec_read_of_closed hclosed len copyOk, exec_write_of_closed hclosed len, exec_close_of_closed hclosed⟩

/-- Settles O22: both operations dequeue the same cell. -/
theorem dequeueOfUnwrittenCellFaults : Obligations.DequeueOfUnwrittenCellFaults :=
  fun len copyOk _ hne hread =>
    ⟨exec_deq_of_unwritten hne hread, fun hopen => exec_read_of_unwritten hopen hne hread len copyOk⟩

/-- Settles O24: an empty buffer has room, and the stored cell is then the one at `tail`. -/
theorem pressedKeyCodeIsDeliveredEvenIfZero : Obligations.PressedKeyCodeIsDeliveredEvenIfZero := by
  intro k len s hopen hempty
  have hadvance : nextIndex s.head ≠ s.tail := hempty ▸ nextIndex_ne_self (by decide) s.head
  obtain ⟨t, hpress, ht⟩ : ∃ t, exec (.evtPress k) s = .next t ∧
      t.toBlock = s.toBlock.stored (Config.table (k.setWidth 9)) :=
    ⟨_, exec_evtPress_of_room hopen hadvance k, rfl⟩
  have hitem : t.head ≠ t.tail := by rwa [ht]
  have hread : t.slot.read t.tail.toNat = some (Config.table (k.setWidth 9)) := by
    rw [ht]
    show Memory.read (s.slot.write s.head.toNat _) s.tail.toNat = _
    rw [← hempty, Memory.read_write_same]
  have hstillOpen : t.inUse = true := by rwa [ht]
  refine ⟨t, _, hpress, exec_read_of_item hstillOpen hitem hread len true, rfl, ?_⟩
  show t.head = nextIndex t.tail
  rw [ht]
  exact congrArg nextIndex hempty

/-! ### Frames (R38) -/

/-- Settles O30: an operation of port P leaves the block, or stores at `head` and advances it. -/
theorem storingOperationsFrame : Obligations.StoringOperationsFrame := by
  intro i s t hstores h
  have hi : i.port = .p := by rcases hstores with ⟨v, rfl⟩ | ⟨k, rfl⟩ <;> rfl
  obtain ⟨b', a, hreply, rfl⟩ := exec_eq_next h
  rcases s.toBlock.performSeeing_p Config.table s.tail s.head i hi with ⟨r, _, dropped⟩ | ⟨v, handled, _, _, stored⟩
  · cases dropped.symm.trans hreply
    exact ⟨rfl, rfl, rfl, rfl, rfl, .inl rfl, fun _ _ => rfl, fun _ _ _ => rfl⟩
  · cases stored.symm.trans hreply
    refine ⟨rfl, rfl, rfl, rfl, rfl, .inr rfl, fun a ha => Memory.read_write_other _ v ha, fun r hr hok => ?_⟩
    cases hr
    cases hok

section
variable {i : Instr} {s t : State} {u : Bool}

theorem eq_of_testsItems (h : testsItems u i = true) : i = .deq ∨ ∃ n k, i = .read n k := by
  cases i with
  | deq => exact .inl rfl
  | read n k => exact .inr ⟨n, k, rfl⟩
  | lookup _ | evtPress _ | evtRelease _ | enq _ | openSession _ | write _ | close => cases h

theorem eq_of_testsSpace (h : testsSpace u i = true) : (∃ v, i = .enq v) ∨ ∃ k, i = .evtPress k := by
  cases i with
  | enq v => exact .inl ⟨v, rfl⟩
  | evtPress k => exact .inr ⟨k, rfl⟩
  | lookup _ | evtRelease _ | deq | openSession _ | read _ _ | write _ | close => cases h

/-- Everything a next state of an operation can be: the block as it was but for the session bit, which `OPEN` raises and
`CLOSE` lowers; a value stored; or an item taken. -/
theorem exec_next_cases (h : exec i s = .next t) :
    (∃ u a, (u = s.inUse ∨ (i = .openSession true ∧ s.inUse = false ∧ u = true) ∨
        (i = .close ∧ s.inUse = true ∧ u = false)) ∧
      t = { s with inUse := u, out := s.out.put a }) ∨
    (∃ v a, testsSpace s.inUse i = true ∧ t = { s with toBlock := s.toBlock.stored v, out := s.out.put a }) ∨
    (∃ a, testsItems s.inUse i = true ∧ t = { s with toBlock := s.toBlock.taken, out := s.out.put a }) := by
  obtain ⟨b', a, hreply, rfl⟩ := exec_eq_next h
  cases hport : i.port with
  | t =>
    obtain rfl := Block.performSeeing_t_frame hport hreply
    exact .inl ⟨s.inUse, a, .inl rfl, rfl⟩
  | p =>
    rcases s.toBlock.performSeeing_p Config.table s.tail s.head i hport with ⟨r, _, dropped⟩ | ⟨v, _, htests, _, stored⟩
    · cases dropped.symm.trans hreply
      exact .inl ⟨s.inUse, _, .inl rfl, rfl⟩
    · cases stored.symm.trans hreply
      exact .inr (.inl ⟨v, _, htests, rfl⟩)
  | c =>
    rcases s.toBlock.performSeeing_c Config.table s.tail s.head i hport with
      ⟨u, r, hu, _, _, answered⟩ | ⟨v, r, htests, _, _, _, taken⟩ | ⟨_, _, _, unwritten⟩
    · cases answered.symm.trans hreply
      exact .inl ⟨u, _, hu, rfl⟩
    · cases taken.symm.trans hreply
      exact .inr (.inr ⟨_, htests, rfl⟩)
    · cases unwritten.symm.trans hreply

/-- An operation answers on its own port and takes nothing off the script. -/
theorem exec_answers_on_own_port (h : exec i s = .next t) :
    t.script = s.script ∧ (i.port ≠ .t → t.out.t = s.out.t) ∧ (i.port ≠ .p → t.out.p = s.out.p) ∧
      (i.port ≠ .c → t.out.c = s.out.c) := by
  cases hport : i.port with
  | t =>
    cases i with
    | lookup idx =>
      cases (exec_lookup idx s).symm.trans h
      exact ⟨rfl, fun hne => absurd rfl hne, fun _ => rfl, fun _ => rfl⟩
    | evtPress _ | evtRelease _ | enq _ | deq | openSession _ | read _ _ | write _ | close => cases hport
  | p =>
    rw [← exec_p_owned hport h]
    exact ⟨rfl, fun _ => rfl, fun hne => absurd rfl hne, fun _ => rfl⟩
  | c =>
    rw [← exec_c_owned hport h]
    exact ⟨rfl, fun _ => rfl, fun _ => rfl, fun hne => absurd rfl hne⟩

end

/-- Settles O31: what is left when no value is stored: the session bit changes, or an item is taken. -/
theorem nonStoringOperationsFrame : Obligations.NonStoringOperationsFrame := by
  intro i s t henq hpress h
  obtain ⟨hscript, ht, hp, hc⟩ := exec_answers_on_own_port h
  rcases exec_next_cases h with ⟨u, a, hu, rfl⟩ | ⟨v, a, htests, rfl⟩ | ⟨a, htests, rfl⟩
  · refine ⟨fun _ => rfl, rfl, hscript, .inl rfl, fun hmoved => absurd rfl hmoved, fun hchanged => ?_, ht, hp, hc⟩
    rcases hu with hu | ⟨rfl, _, _⟩ | ⟨rfl, _, _⟩
    · exact absurd hu hchanged
    · exact .inr ⟨true, rfl⟩
    · exact .inl rfl
  · rcases eq_of_testsSpace htests with ⟨v, hv⟩ | ⟨k, hk⟩
    · exact absurd hv (henq v)
    · exact absurd hk (hpress k)
  · exact ⟨fun _ => rfl, rfl, hscript, .inr rfl, fun _ => eq_of_testsItems htests, fun hchanged => absurd rfl hchanged,
      ht, hp, hc⟩

/-- Settles O32: only the first of the three things an operation can do touches the session bit, and both its changes
happen. -/
theorem sessionBitChangesOnlyAtOpenAndClose : Obligations.SessionBitChangesOnlyAtOpenAndClose := by
  intro i s t h
  constructor
  · intro hchanged
    rcases exec_next_cases h with ⟨u, a, hu, rfl⟩ | ⟨v, a, _, rfl⟩ | ⟨a, _, rfl⟩
    · rcases hu with hu | ⟨hi, hclosed, _⟩ | ⟨hi, hopen, _⟩
      · exact absurd hu hchanged
      · exact .inl ⟨hi, hclosed⟩
      · exact .inr ⟨hi, hopen⟩
    · exact absurd rfl hchanged
    · exact absurd rfl hchanged
  · rintro (⟨rfl, hclosed⟩ | ⟨rfl, hopen⟩)
    · cases (exec_openSession_of_closed hclosed).symm.trans h
      rw [hclosed]
      exact nofun
    · cases (exec_close_of_open hopen).symm.trans h
      rw [hopen]
      exact nofun

/-! ### The statuses of port C (R120, R127) -/

section
variable {s t : State}

/-- `DEQ` that gives a next state answers `OK`. -/
theorem exec_deq_status (h : exec .deq s = .next t) : ∃ data, t.out.c = some ⟨.ok, 0, data⟩ := by
  by_cases hempty : s.head = s.tail
  · cases (exec_deq_of_empty hempty).symm.trans h
    exact ⟨_, rfl⟩
  · cases hread : s.slot.read s.tail.toNat with
    | none => cases (exec_deq_of_unwritten hempty hread).symm.trans h
    | some v =>
      cases (exec_deq_of_item hempty hread).symm.trans h
      exact ⟨_, rfl⟩

/-- `READ` in an open session that gives a next state answers `COPY_FAULT` for an item that is not copied, `OK` otherwise. -/
theorem exec_read_status (hopen : s.inUse = true) {len : Len} {copyOk : Bool}
    (h : exec (.read len copyOk) s = .next t) :
    (s.head ≠ s.tail ∧ copyOk = false ∧ t.out.c = some ⟨.copyFault, 0, none⟩) ∨
    (¬ (s.head ≠ s.tail ∧ copyOk = false) ∧ ∃ data, t.out.c = some ⟨.ok, len, data⟩) := by
  by_cases hempty : s.head = s.tail
  · cases (exec_read_of_empty hopen hempty len copyOk).symm.trans h
    exact .inr ⟨fun hitem => hitem.1 hempty, _, rfl⟩
  · cases hread : s.slot.read s.tail.toNat with
    | none => cases (exec_read_of_unwritten hopen hempty hread len copyOk).symm.trans h
    | some v =>
      cases (exec_read_of_item hopen hempty hread len copyOk).symm.trans h
      cases copyOk with
      | false => exact .inl ⟨hempty, rfl, rfl⟩
      | true => exact .inr ⟨nofun, _, rfl⟩

end

/-- Settles O33: the status of each operation, by the session bit and then by its own tests. -/
theorem eachStatusHasExactlyItsCondition : Obligations.EachStatusHasExactlyItsCondition := by
  intro i s t hport h
  cases i with
  | deq =>
    obtain ⟨data, hanswer⟩ := exec_deq_status h
    exact ⟨_, hanswer, by simp⟩
  | openSession subOk =>
    cases hsession : s.inUse with
    | true =>
      cases (exec_openSession_of_open hsession subOk).symm.trans h
      exact ⟨_, rfl, by simp⟩
    | false =>
      cases subOk with
      | true =>
        cases (exec_openSession_of_closed hsession).symm.trans h
        exact ⟨_, rfl, by simp⟩
      | false =>
        cases (exec_openSession_of_closed_of_unsubscribed hsession).symm.trans h
        exact ⟨_, rfl, by simp⟩
  | read len copyOk =>
    cases hsession : s.inUse with
    | true =>
      rcases exec_read_status hsession h with ⟨hitem, rfl, hanswer⟩ | ⟨hnot, data, hanswer⟩
      · exact ⟨_, hanswer, by simp [hitem]⟩
      · refine ⟨_, hanswer, by simp, by simp, ?_, by simp, by simp, by simp⟩
        refine iff_of_false nofun ?_
        rintro ⟨_, hitem, n, heq⟩
        cases heq
        exact hnot ⟨hitem, rfl⟩
    | false =>
      cases (exec_read_of_closed hsession len copyOk).symm.trans h
      exact ⟨_, rfl, by simp⟩
  | write len =>
    cases hsession : s.inUse with
    | true =>
      cases (exec_write_of_open hsession len).symm.trans h
      exact ⟨_, rfl, by simp⟩
    | false =>
      cases (exec_write_of_closed hsession len).symm.trans h
      exact ⟨_, rfl, by simp⟩
  | close =>
    cases hsession : s.inUse with
    | true =>
      cases (exec_close_of_open hsession).symm.trans h
      exact ⟨_, rfl, by simp⟩
    | false =>
      cases (exec_close_of_closed hsession).symm.trans h
      exact ⟨_, rfl, by simp⟩
  | lookup _ | evtPress _ | evtRelease _ | enq _ => cases hport

end Sys2Proof.Machine
